-- ==== Sys2Proof/Word.lean ====
section
/-! DEFINITION. The word types of the engine (00_scope.md R11): bytes, 32-bit register words, 8-byte semiblocks
and 16-byte cipher blocks. -/

namespace Sys2Proof

/-- A byte of a byte string or of a buffer cell. -/
abbrev Byte := BitVec 8

/-- A 32-bit register value or command word, bits 31..0 (00_scope.md R11). -/
abbrev Word := BitVec 32

/-- A semiblock: 8 bytes read as a big-endian number, so that byte 0 is bits 63:56 (R11, R57; log 14). -/
abbrev Semiblock := BitVec 64

/-- A cipher block: 16 bytes, byte 0 is bits 127:120 (R11; log 14). -/
abbrev Block := BitVec 128

end Sys2Proof
end

