-- ==== Sys2Proof/Syntax.lean ====
section
/-! DEFINITION. The instructions of the engine: the command words (30_encoding.md R70), one constructor per row of
spec/opcode_table.json. A command carries no operand but IV_SEL (R71, R72). -/

namespace Sys2Proof

/-- A command. -/
inductive Instr where
  /-- WRAP (40_keywrap.md R109); `ivSel` is IV_SEL, true for the IV register. -/
  | wrap (ivSel : Bool)
  /-- UNWRAP (40_keywrap.md R112). -/
  | unwrap (ivSel : Bool)
  /-- WRAP_PAD (41_padded_keywrap.md R135). -/
  | wrapPad
  /-- UNWRAP_PAD (41_padded_keywrap.md R137). -/
  | unwrapPad
  /-- ILLEGAL (30_encoding.md R74): the command word `w` is none of the six legal words. -/
  | illegal (w : Word)
deriving DecidableEq, Repr

end Sys2Proof
end

