-- ==== Sys2Proof/Decode.lean ====
section
/-! DEFINITION. The command word: its fields, which words are legal, the total decoder and the encoder
(30_encoding.md R70 to R75). -/

namespace Sys2Proof

/-- `OP = w[3:0]` (R71). -/
def opField (w : Word) : BitVec 4 := w.extractLsb' 0 4

/-- `IV_SEL = w[4]` (R71). -/
def ivSelField (w : Word) : Bool := w.getLsbD 4

/-- `w[31:5]`, reserved (R71). -/
def reservedField (w : Word) : BitVec 27 := w.extractLsb' 5 27

/-- `legal(w)` of R73, in the rule's own form. -/
def legal (w : Word) : Bool :=
  reservedField w == 0 &&
    ((opField w == 1 || opField w == 2) || ((opField w == 3 || opField w == 4) && !ivSelField w))

/-- The decoder (R70, R75): total; every word that is not a legal one is `illegal` and keeps its bits. -/
def decode (w : Word) : Instr :=
  if reservedField w = 0 then
    if opField w = 1 then .wrap (ivSelField w)
    else if opField w = 2 then .unwrap (ivSelField w)
    else if opField w = 3 ∧ ivSelField w = false then .wrapPad
    else if opField w = 4 ∧ ivSelField w = false then .unwrapPad
    else .illegal w
  else .illegal w

/-- A word of a command from its fields (R71). -/
def commandWord (ivSel : Bool) (op : BitVec 4) : Word :=
  (0 : BitVec 27) ++ BitVec.ofBool ivSel ++ op

/-- The encoder, from the opcode map of R70 and the layout of R71. -/
def encode : Instr → Word
  | .wrap ivSel => commandWord ivSel 1
  | .unwrap ivSel => commandWord ivSel 2
  | .wrapPad => commandWord false 3
  | .unwrapPad => commandWord false 4
  | .illegal w => w

/-- Why a bit pattern is no command word at all. -/
inductive Reject where
  /-- R75: every command is exactly one 32-bit word; this pattern is longer. -/
  | longerThanOneWord
  /-- The pattern has a bit set above bit 31. -/
  | bitAboveWord
deriving DecidableEq, Repr

/-- The decoder on any bit pattern of `nbits` bits (bits above them zero): one 32-bit word or a rejection by name. -/
def decodeBits (nbits w : Nat) : Except Reject Instr :=
  if 32 < nbits then .error .longerThanOneWord
  else if 2 ^ 32 ≤ w then .error .bitAboveWord
  else .ok (decode (BitVec.ofNat 32 w))

/-- The host's view of the decoder on an opcode-table row's word. -/
def decodeTableWord (nbits w : Nat) : Option Instr :=
  match decodeBits nbits w with
  | .ok i => some i
  | .error _ => none

end Sys2Proof
end

