-- ==== Sys2Proof/Config.lean ====
section
/-! DEFINITION. What the spec leaves to the configuration (00_scope.md R9) and the free values it leaves open.
`Params` is one choice of all of them; `Config.params` is this machine's, built from constants with no body. -/

namespace Sys2Proof

/-- The parameters of the step relation (00_scope.md R9, 10_state.md R20) and the free values. -/
structure Params where
  /-- `SB_MAX` (R9): the most plaintext semiblocks one command may hold. -/
  sbMax : Nat
  /-- `CIPH_ENC` (R9, R100). -/
  enc : List Byte → Block → Block
  /-- `CIPH_DEC` (R9, R100). -/
  dec : List Byte → Block → Block
  /-- Free value (R9, R165, R167): how many host turns pass between the k-th acceptance and its completion. -/
  latency : Nat → Nat
  /-- Free value (R241): what cell `q` of IBUF holds after the r-th reset, until the host writes it. -/
  ibufDraw : Nat → Nat → Byte
  /-- Free value (log 10): OUT_LEN_HI after a result too long for the 64 bits of OUT_LEN. -/
  outLenHiFree : Nat → Word

namespace Params

/-- `BUF_BYTES = 8*(SB_MAX+1)` (R9, R30, R31). -/
def bufBytes (P : Params) : Nat := 8 * (P.sbMax + 1)

/-- The range R9 gives SB_MAX: `2 <= SB_MAX and 6*SB_MAX + 6 < 2^64`. -/
abbrev Legal (P : Params) : Prop := 2 ≤ P.sbMax ∧ 6 * P.sbMax + 6 < 2 ^ 64

/-- The cipher law of 40_keywrap.md R101, the named hypothesis a statement assumes of the cipher parameter:
for every key of a legal length, `DEC` and `ENC` undo each other on every block. -/
def CipherLaw (P : Params) : Prop :=
  ∀ k : List Byte, (k.length = 16 ∨ k.length = 24 ∨ k.length = 32) →
    ∀ x : Block, P.dec k (P.enc k x) = x ∧ P.enc k (P.dec k x) = x

end Params

/-- Parameter of R9 (log 1). -/
opaque Config.sbMaxChoice : Nat

/-- Parameter `CIPH_ENC` of R9 and R100 (log 2). -/
opaque Config.ciphEnc : List Byte → Block → Block

/-- Parameter `CIPH_DEC` of R9 and R100 (log 2). -/
opaque Config.ciphDec : List Byte → Block → Block

/-- Free value: the latency of the k-th accepted command (R165, R167; log 3). -/
opaque Config.latency : Nat → Nat

/-- Free value: an IBUF cell after the r-th reset (R241; log 4). -/
opaque Config.ibufDraw : Nat → Nat → Byte

/-- Free value: OUT_LEN_HI where the result length does not fit OUT_LEN (log 10). -/
opaque Config.outLenHiFree : Nat → Word

/-- SB_MAX: any value R9 allows; the reference value 1024 stands for a choice outside R9's range (log 1). -/
def Config.sbMax : Nat :=
  if 2 ≤ Config.sbMaxChoice ∧ 6 * Config.sbMaxChoice + 6 < 2 ^ 64 then Config.sbMaxChoice else 1024

/-- The parameters of this machine. -/
def Config.params : Params where
  sbMax := Config.sbMax
  enc := Config.ciphEnc
  dec := Config.ciphDec
  latency := Config.latency
  ibufDraw := Config.ibufDraw
  outLenHiFree := Config.outLenHiFree

end Sys2Proof
end

