-- ==== Sys2Proof/Machine/State.lean ====
section
/-! DEFINITION. The state of the engine (10_state.md R20 to R38), the host's transactions as inputs
(20_memory.md R50, R51), the reasons a step may stop, and the state after reset (70_reset_and_hazards.md R240). -/

namespace Sys2Proof.Machine

/-- The STATUS.ERR codes (60_exceptions.md R200); codes 6 and 7 are never produced and have no constructor. -/
inductive ErrCode where
  | none
  | invalidKeyLength
  | invalidPlaintextLength
  | invalidWrappedLength
  | integrityCheckFailed
  | illegalCommand
deriving DecidableEq, Repr

/-- The three address spaces of the host interface (20_memory.md R50). -/
inductive Space where
  | reg
  | ibuf
  | obuf
deriving DecidableEq, Repr

/-- The registers of the window (10_state.md R21); `reserved` is any aligned offset with no register. -/
inductive Reg where
  | cmd
  | status
  | kekLen
  | ivHi
  | ivLo
  | inLenLo
  | inLenHi
  | outLenLo
  | outLenHi
  | kekW (w : Fin 8)
  | reserved
deriving DecidableEq, Repr

/-- A host bus transaction (20_memory.md R51): its space, byte offset and width in bytes. The datum of a one-byte
write is the low byte of `data` (log 13). -/
inductive Transaction where
  | memRead (space : Space) (off width : Nat)
  | memWrite (space : Space) (off width : Nat) (data : Word)
deriving DecidableEq, Repr

/-- What can reach the engine from outside: a bus transaction, or the reset input RST (R240). -/
inductive HostEvent where
  | bus (t : Transaction)
  | rst
deriving DecidableEq, Repr

/-- OK or BUS_ERR (20_memory.md R51). -/
inductive BusResponse where
  | ok
  | busErr
deriving DecidableEq, Repr

/-- The answer of one transaction (R51): a read carries data (0 on BUS_ERR), a write carries none. -/
structure Answer where
  resp : BusResponse
  data : Option Word
deriving DecidableEq, Repr

/-- Faults of the host PROGRAM, not of the engine (93_implementation_defined.md section 1; log 6). -/
inductive HostFault where
  /-- The host received BUS_ERR (20_memory.md R52). -/
  | busError
  /-- The host wrote while BUSY, and the write was lost (70_reset_and_hazards.md R250). -/
  | writeWhileBusy
deriving DecidableEq, Repr

/-- Buffer contents: the listed cells, offsets strictly rising. -/
abbrev Memory := List Host.Cell

/-- The operands of the command in flight, captured at acceptance (10_state.md R33). -/
structure Snapshot where
  /-- The whole CMD word; `op` and `ivsel` are its fields. -/
  word : Word
  /-- KEK_LEN[7:0]. -/
  klen : Byte
  /-- KEKBYTES, 32 bytes. -/
  kek : List Byte
  /-- The IV register (R25). -/
  iv : Semiblock
  /-- IN_LEN. -/
  inlen : BitVec 64
  /-- The spec's `in`: IBUF[0 : min(inlen, BUF_BYTES)]. -/
  data : List Byte
deriving DecidableEq, Repr

/-- The phase (10_state.md R32). A BUSY engine has exactly one command in flight; `left` is how many host turns
still pass before COMPLETE fires (log 3). -/
inductive Phase where
  | idle
  | busy (sn : Snapshot) (left : Nat)
deriving DecidableEq, Repr

/-- The state of the machine. -/
structure State where
  /-- IDLE, or BUSY with the command in flight (R32, R33); STATUS.BUSY is its view. -/
  phase : Phase
  /-- STATUS.DONE (R23). -/
  done : Bool
  /-- STATUS.ERR (R23). -/
  err : ErrCode
  /-- KEK_LEN[7:0] (R24). -/
  kekLen : Byte
  /-- KEK_W0 .. KEK_W7 (R28). -/
  kek : Vector Word 8
  /-- IV_HI (R25). -/
  ivHi : Word
  /-- IV_LO (R25). -/
  ivLo : Word
  /-- IN_LEN_LO (R26). -/
  inLenLo : Word
  /-- IN_LEN_HI (R26). -/
  inLenHi : Word
  /-- OUT_LEN_LO (R27). -/
  outLenLo : Word
  /-- OUT_LEN_HI (R27). -/
  outLenHi : Word
  /-- IBUF (R30): the cells the host has written since reset. -/
  ibuf : Memory
  /-- OBUF (R31): the cells that are not 0x00. -/
  obuf : Memory
  /-- Host events still to be performed, oldest first (log 5). -/
  inbox : List HostEvent
  /-- Bus answers given so far, newest first (log 5). -/
  answers : List Answer
  /-- The first host fault, if any (log 6). -/
  hostFault : Option HostFault
  /-- Commands accepted so far: the counter of the latency draws (log 3). -/
  accepted : Nat
  /-- RST events so far: the counter of the IBUF draws (log 4). -/
  resets : Nat
deriving DecidableEq, Repr

/-- Faults of the machine: NONE. The engine has no traps (60_exceptions.md R212), a command's errors are codes in
STATUS, BUS_ERR is the answer of one transaction (R207), and no instruction stops; so the type has no constructor
and no step ever raises one (safe). -/
inductive Fault where
deriving DecidableEq, Repr

/-- Refusals. -/
inductive Refusal where
  /-- Raised only by an arm of `exec` for an instruction that has no meaning yet; no arm raises it now (safe). -/
  | notModelled (mnemonic : String)
deriving DecidableEq, Repr

/-- The state after reset (R240): every register 0, OBUF all 0x00, IBUF unspecified (no cell written), IDLE.
The model's own fields are empty (log 3, 4, 5, 6). -/
def State.reset : State where
  phase := .idle
  done := false
  err := .none
  kekLen := 0
  kek := Vector.replicate 8 0
  ivHi := 0
  ivLo := 0
  inLenLo := 0
  inLenHi := 0
  outLenLo := 0
  outLenHi := 0
  ibuf := []
  obuf := []
  inbox := []
  answers := []
  hostFault := none
  accepted := 0
  resets := 0

end Sys2Proof.Machine
end

