-- ==== Sys2Proof/Machine/Flags.lean ====
section
/-! DEFINITION. The engine's only flags: STATUS.BUSY, DONE and ERR (10_state.md R23, R37; 60_exceptions.md R200). -/

namespace Sys2Proof.Machine

/-- The numeric code of STATUS.ERR (R200). -/
def ErrCode.code : ErrCode → BitVec 3
  | .none => 0
  | .invalidKeyLength => 1
  | .invalidPlaintextLength => 2
  | .invalidWrappedLength => 3
  | .integrityCheckFailed => 4
  | .illegalCommand => 5

/-- STATUS.BUSY: 1 in BUSY, 0 in IDLE (R32). -/
def State.isBusy (s : State) : Bool :=
  match s.phase with
  | .idle => false
  | .busy _ _ => true

/-- The STATUS word (R23): BUSY[0], DONE[1], ERR[10:8], every other bit 0. -/
def State.statusWord (s : State) : Word :=
  (0 : BitVec 21) ++ s.err.code ++ (0 : BitVec 6) ++ BitVec.ofBool s.done ++ BitVec.ofBool s.isBusy

/-- STATUS right after acceptance: DONE = 0 and ERR = 0 (R160). -/
def State.clearStatus (s : State) : State := { s with done := false, err := .none }

/-- STATUS at completion: DONE = 1 and ERR = err (R165). -/
def State.setStatus (s : State) (e : ErrCode) : State := { s with done := true, err := e }

end Sys2Proof.Machine
end

