-- ==== Sys2Proof/Machine/Operands.lean ====
section
/-! DEFINITION. Byte strings and integers (00_scope.md R11), the semiblock partition (40_keywrap.md R106), and the
assembly of a command's operands (30_encoding.md R72, 10_state.md R25, R28, R33). -/

namespace Sys2Proof.Machine

/-- `uint_be(s)` (R11). -/
def uintBe : List Byte → Nat
  | [] => 0
  | b :: s => b.toNat * 256 ^ s.length + uintBe s

/-- The k-byte big-endian encoding of `v`: `be32` for k = 4, `be64` for k = 8 (R11). -/
def beBytes : Nat → Nat → List Byte
  | 0, _ => []
  | k + 1, v => BitVec.ofNat 8 (v / 256 ^ k) :: beBytes k v

/-- The semiblock of 8 bytes, byte 0 most significant (R11). -/
def semiblockOf (s : List Byte) : Semiblock := BitVec.ofNat 64 (uintBe s)

/-- The 8 bytes of a semiblock. -/
def semiblockBytes (a : Semiblock) : List Byte := beBytes 8 a.toNat

/-- The block of 16 bytes, byte 0 most significant (R11). -/
def blockOf (s : List Byte) : Block := BitVec.ofNat 128 (uintBe s)

/-- The 16 bytes of a block. -/
def blockBytes (b : Block) : List Byte := beBytes 16 b.toNat

/-- `MSB64(B)`, bytes 0..7 of a block (R11). -/
def msb64 (b : Block) : Semiblock := b.extractLsb' 64 64

/-- `LSB64(B)`, bytes 8..15 of a block (R11). -/
def lsb64 (b : Block) : Semiblock := b.extractLsb' 0 64

/-- `A || R`: the block whose bytes 0..7 are `a` and 8..15 are `r` (R56). -/
def blockPair (a r : Semiblock) : Block := a ++ r

/-- `SB(d)` (R106): semiblock i (from 0) is bytes 8i .. 8i+7 of `d`. -/
def semiblocks (d : List Byte) : List Semiblock :=
  (List.range (d.length / 8)).map fun i => semiblockOf ((d.drop (8 * i)).take 8)

/-- `R[1] || ... || R[n]` (R106). -/
def joinSemiblocks (r : List Semiblock) : List Byte := r.flatMap semiblockBytes

/-- `KEKBYTES` (R28): each word gives 4 bytes, bits 31:24 first. -/
def kekBytes (kek : Vector Word 8) : List Byte := kek.toList.flatMap fun w => beBytes 4 w.toNat

/-- `IV` (R25): IV_HI gives bytes 0..3, IV_LO bytes 4..7. -/
def State.iv (s : State) : Semiblock := s.ivHi ++ s.ivLo

/-- `IN_LEN = IN_LEN_HI * 2^32 + IN_LEN_LO` (R26). -/
def State.inLen (s : State) : BitVec 64 := s.inLenHi ++ s.inLenLo

/-- `OUT_LEN = OUT_LEN_HI * 2^32 + OUT_LEN_LO` (R27). -/
def State.outLen (s : State) : BitVec 64 := s.outLenHi ++ s.outLenLo

/-- `ICV1 = A6A6A6A6A6A6A6A6` (R38, R107). -/
def icv1 : Semiblock := 0xA6A6A6A6A6A6A6A6

/-- `AIV_PREFIX = A65959A6` (R38, R130). -/
def aivPrefix : Word := 0xA65959A6

/-- The legal key lengths, `KEK_LENGTHS` (R9, R24). -/
def keyLengthLegal (klen : Byte) : Bool := klen == 16 || klen == 24 || klen == 32

/-- The cipher key `k = KEKBYTES[0 : LEN]` (R72). -/
def Snapshot.key (sn : Snapshot) : List Byte := sn.kek.take sn.klen.toNat

/-- `L = IN_LEN` of the command (R72). -/
def Snapshot.length (sn : Snapshot) : Nat := sn.inlen.toNat

/-- `icv = (IV_SEL = 1) ? IV : ICV1` (R72, R107). -/
def icvOf (ivSel : Bool) (sn : Snapshot) : Semiblock := if ivSel then sn.iv else icv1

end Sys2Proof.Machine
end

