-- ==== Sys2Proof/Machine/Ops.lean ====
section
/-! DEFINITION. The named operations over the buffers and the command state: the sparse memory (10_state.md R30,
R31), the snapshot, ACCEPT (42_host_commands.md R160), and COMPLETE's commit (R165, R166) with error reporting, the
engine's one exception (60_exceptions.md R212), and reset (70_reset_and_hazards.md R240, R243). -/

namespace Sys2Proof.Machine

/-- What a cell that is not listed reads as: 0x00 in OBUF (R31), no value of its own in IBUF (R241: the read then
gives the free value of the cell). REG has no cells. -/
def Space.blank : Space → Option Byte
  | .reg => some 0
  | .ibuf => none
  | .obuf => some 0

/-- The canonical form of a buffer: offsets strictly rising, and no entry equal to what an unlisted cell reads as. -/
abbrev Memory.wf (blank : Option Byte) (m : Memory) : Prop :=
  m.Pairwise (fun c d => c.1 < d.1) ∧ ∀ c ∈ m, some c.2 ≠ blank

/-- Every listed cell lies below `limit`. -/
abbrev Memory.within (limit : Nat) (m : Memory) : Prop := ∀ c ∈ m, c.1 < limit

/-- The listed value of cell `q`. -/
def Memory.find : Memory → Nat → Option Byte
  | [], _ => none
  | c :: m, q => if c.1 = q then some c.2 else Memory.find m q

/-- `m` with cell `q` listed as `b`. -/
def Memory.put : Memory → Nat → Byte → Memory
  | [], q, b => [(q, b)]
  | c :: m, q, b =>
    if c.1 < q then c :: Memory.put m q b
    else if c.1 = q then (q, b) :: m
    else (q, b) :: c :: m

/-- `m` with cell `q` not listed. -/
def Memory.drop (m : Memory) (q : Nat) : Memory := m.filter fun c => c.1 != q

/-- A write of one cell, in canonical form. -/
def Memory.write (blank : Option Byte) (m : Memory) (q : Nat) (b : Byte) : Memory :=
  if some b = blank then Memory.drop m q else Memory.put m q b

/-- A write of a byte string from cell `q` on. -/
def Memory.writeBytes (blank : Option Byte) (m : Memory) : Nat → List Byte → Memory
  | _, [] => m
  | q, b :: s => Memory.write blank (Memory.writeBytes blank m (q + 1) s) q b

/-- `IBUF[q]` (R30, R241): the byte the host wrote since reset, else the free value of the cell. -/
def State.ibufAt (P : Params) (s : State) (q : Nat) : Byte :=
  (Memory.find s.ibuf q).getD (P.ibufDraw s.resets q)

/-- `OBUF[q]` (R31). -/
def State.obufAt (s : State) (q : Nat) : Byte := (Memory.find s.obuf q).getD 0

/-- `IBUF[0 : n]`. -/
def State.ibufBytes (P : Params) (s : State) (n : Nat) : List Byte := (List.range n).map (s.ibufAt P)

/-- `OBUF[0 : n]`. -/
def State.obufBytes (s : State) (n : Nat) : List Byte := (List.range n).map s.obufAt

/-- The snapshot ACCEPT(w) takes (R33, R160, R161). -/
def capture (P : Params) (w : Word) (s : State) : Snapshot where
  word := w
  klen := s.kekLen
  kek := kekBytes s.kek
  iv := s.iv
  inlen := s.inLen
  data := s.ibufBytes P (min s.inLen.toNat P.bufBytes)

/-- ACCEPT(w) with a given latency: the snapshot is taken, OBUF, OUT_LEN and the last result code are cleared, and
the engine is BUSY (R160). It is also the return from an error (60_exceptions.md R213). -/
def acceptIn (P : Params) (w : Word) (latency : Nat) (s : State) : State :=
  { s.clearStatus with
      phase := .busy (capture P w s) latency
      obuf := []
      outLenLo := 0
      outLenHi := 0 }

/-- ACCEPT(w) (R160): the latency is the next free value (log 3). -/
def accept (P : Params) (w : Word) (s : State) : State :=
  { acceptIn P w (P.latency s.accepted) s with accepted := s.accepted + 1 }

/-- The command in flight and the state it completes in. An IDLE state has none: there the word `w` is accepted
first, so that the command runs from issue to completion (log 8; `step` runs an instruction only while BUSY). -/
def inFlight (P : Params) (w : Word) (s : State) : Snapshot × State :=
  match s.phase with
  | .busy sn _ => (sn, s)
  | .idle => (capture P w s, accept P w s)

/-- The two calls the engine makes of the block cipher (40_keywrap.md R100). -/
inductive CipherDir where
  | enc
  | dec
deriving DecidableEq, Repr

/-- One call of the cipher: which function, its key and its block (R100, R223). -/
structure CipherCall where
  dir : CipherDir
  key : List Byte
  block : Block
deriving DecidableEq, Repr

/-- The result `(err, out)` of EXEC (42_host_commands.md R162), with the cipher calls made, oldest first (log 15). -/
structure Result where
  err : ErrCode
  out : List Byte
  calls : List CipherCall
deriving DecidableEq, Repr

/-- `raise E` (00_scope.md R12, R162): the error, and no output. -/
def Result.raise (e : ErrCode) (calls : List CipherCall) : Result := ⟨e, [], calls⟩

/-- `commit success(out)` (R162). -/
def Result.success (out : List Byte) (calls : List CipherCall) : Result := ⟨.none, out, calls⟩

/-- A call of the cipher (R12, R100). -/
def cipher (P : Params) : CipherDir → List Byte → Block → Block
  | .enc => P.enc
  | .dec => P.dec

/-- What OUT_LEN_HI takes for a result of `n` bytes (R165): `n >> 32`; a free value where that exceeds 32 bits
(log 10). -/
def outLenHiOf (P : Params) (n : Nat) (draw : Nat) : Word :=
  if n < 2 ^ 64 then BitVec.ofNat 32 (n / 2 ^ 32) else P.outLenHiFree draw

/-- The commit of a success (R165, R166): OBUF[0 : len] and OUT_LEN. -/
def commitSuccess (P : Params) (out : List Byte) (s : State) : State :=
  { s with
      obuf := Memory.writeBytes Space.obuf.blank s.obuf 0 out
      outLenLo := BitVec.ofNat 32 out.length
      outLenHi := outLenHiOf P out.length s.accepted }

/-- Error reporting (60_exceptions.md R212), the engine's only exception: STATUS = 0x2 | (code << 8), and nothing
else is written; the command ends. -/
def reportError (e : ErrCode) (s : State) : State :=
  { s.setStatus e with phase := .idle }

/-- COMPLETE (42_host_commands.md R165): commit the result, set STATUS, go IDLE and discard the snapshot. -/
def complete (P : Params) (r : Result) (s : State) : State :=
  match r.err with
  | .none => { (commitSuccess P r.out s).setStatus .none with phase := .idle }
  | e => reportError e s

/-- Reset (70_reset_and_hazards.md R240, R243): every engine field at its reset value, whatever was in flight; the
IBUF cells are drawn anew (R241). The host's events, answers and fault, and the counters of the free values, are no
part of the engine and stay (log 12). -/
def resetEngine (s : State) : State :=
  { State.reset with
      inbox := s.inbox
      answers := s.answers
      hostFault := s.hostFault
      accepted := s.accepted
      resets := s.resets + 1 }

end Sys2Proof.Machine
end

