-- ==== Sys2Proof/Machine/IllegalCommand.lean ====
section
/-! DEFINITION. The command of an illegal word (30_encoding.md R74, 60_exceptions.md R206). -/

namespace Sys2Proof.Machine

/-- The result of an illegal word (R162, R206): ILLEGAL_COMMAND, no output and no cipher call. -/
def illegalResult : Result := .raise .illegalCommand []

/-- ILLEGAL under the parameters `P`. -/
def execIllegalIn (P : Params) (w : Word) (s : State) : Host.Outcome State Fault Refusal :=
  let f := inFlight P (encode (.illegal w)) s
  .next (complete P illegalResult f.2)

/-- ILLEGAL (R74): the command completes with ERR = ILLEGAL_COMMAND. -/
def execIllegal (w : Word) (s : State) : Host.Outcome State Fault Refusal := execIllegalIn Config.params w s

end Sys2Proof.Machine
end

