-- ==== Sys2Proof/Machine/Transforms.lean ====
section
/-! DEFINITION. The core transforms W and U of RFC 3394 (40_keywrap.md R102, R103). -/

namespace Sys2Proof.Machine

/-- The working state of a transform (10_state.md R34): A, the semiblocks R[1..n] (R[i] at index i-1), and the
cipher calls made so far, oldest first. -/
structure Work where
  a : Semiblock
  r : List Semiblock
  calls : List CipherCall
deriving DecidableEq, Repr

/-- R[i], 1 <= i <= n (R102). -/
def Work.reg (w : Work) (i : Nat) : Semiblock := w.r.getD (i - 1) 0

/-- The round counter `t = n*j + i`, as the semiblock `be64(t)` (R102, R105). -/
def roundCounter (n j i : Nat) : Semiblock := BitVec.ofNat 64 (n * j + i)

/-- The body of the loop of R102: `B <- ENC(k, A || R[i])`; `A <- MSB64(B) XOR be64(t)`; `R[i] <- LSB64(B)`. -/
def wrapBody (P : Params) (k : List Byte) (n j i : Nat) (w : Work) : Work :=
  let x := blockPair w.a (w.reg i)
  let b := cipher P .enc k x
  { a := msb64 b ^^^ roundCounter n j i
    r := w.r.set (i - 1) (lsb64 b)
    calls := w.calls ++ [⟨.enc, k, x⟩] }

/-- The body of the loop of R103: `B <- DEC(k, (A XOR be64(t)) || R[i])`; `A <- MSB64(B)`; `R[i] <- LSB64(B)`. -/
def unwrapBody (P : Params) (k : List Byte) (n j i : Nat) (w : Work) : Work :=
  let x := blockPair (w.a ^^^ roundCounter n j i) (w.reg i)
  let b := cipher P .dec k x
  { a := msb64 b
    r := w.r.set (i - 1) (lsb64 b)
    calls := w.calls ++ [⟨.dec, k, x⟩] }

/-- The loop indices (j, i) of R102 in their order: j = 0 to 5, and in each j, i = 1 to n. -/
def wrapOrder (n : Nat) : List (Nat × Nat) :=
  (List.range 6).flatMap fun j => (List.range n).map fun i => (j, i + 1)

/-- The loop indices (j, i) of R103 in their order: j = 5 downto 0, and in each j, i = n downto 1. -/
def unwrapOrder (n : Nat) : List (Nat × Nat) :=
  (List.range 6).flatMap fun j => (List.range n).map fun i => (5 - j, n - i)

/-- The wrap transform W(k, A0, P[1..n]) of R102. -/
def wrapTransform (P : Params) (k : List Byte) (a0 : Semiblock) (p : List Semiblock) : Work :=
  (wrapOrder p.length).foldl (fun w ji => wrapBody P k p.length ji.1 ji.2 w) ⟨a0, p, []⟩

/-- The unwrap transform U(k, C0, C[1..n]) of R103; it compares A with nothing. -/
def unwrapTransform (P : Params) (k : List Byte) (c0 : Semiblock) (c : List Semiblock) : Work :=
  (unwrapOrder c.length).foldl (fun w ji => unwrapBody P k c.length ji.1 ji.2 w) ⟨c0, c, []⟩

/-- `A || R[1] || ... || R[n]` (R106). -/
def Work.output (w : Work) : List Byte := semiblockBytes w.a ++ joinSemiblocks w.r

end Sys2Proof.Machine
end

