-- ==== Sys2Proof/Machine/KeyWrap.lean ====
section
/-! DEFINITION. The RFC 3394 commands WRAP and UNWRAP (40_keywrap.md R106 to R112). -/

namespace Sys2Proof.Machine

/-- The checks of WRAP in their order (R108): the error of the first that fails. -/
def wrapCheck (P : Params) (klen : Byte) (len : Nat) : Option ErrCode :=
  if keyLengthLegal klen = false then some .invalidKeyLength
  else if len % 8 ≠ 0 ∨ len < 16 then some .invalidPlaintextLength
  else if len / 8 > P.sbMax then some .invalidPlaintextLength
  else none

/-- WRAP as a pure function of the snapshot (R109). -/
def wrapResult (P : Params) (ivSel : Bool) (sn : Snapshot) : Result :=
  match wrapCheck P sn.klen sn.length with
  | some e => .raise e []
  | none =>
    let w := wrapTransform P sn.key (icvOf ivSel sn) (semiblocks sn.data)
    .success w.output w.calls

/-- WRAP under the parameters `P`. -/
def execWrapIn (P : Params) (ivSel : Bool) (s : State) : Host.Outcome State Fault Refusal :=
  let f := inFlight P (encode (.wrap ivSel)) s
  .next (complete P (wrapResult P ivSel f.1) f.2)

/-- WRAP (R109). -/
def execWrap (ivSel : Bool) (s : State) : Host.Outcome State Fault Refusal :=
  execWrapIn Config.params ivSel s

/-- The checks of UNWRAP in their order (R110). -/
def unwrapCheck (P : Params) (klen : Byte) (len : Nat) : Option ErrCode :=
  if keyLengthLegal klen = false then some .invalidKeyLength
  else if len % 8 ≠ 0 ∨ len < 24 then some .invalidWrappedLength
  else if len / 8 - 1 > P.sbMax then some .invalidWrappedLength
  else none

/-- UNWRAP as a pure function of the snapshot (R112), with the ICV validation of R111. -/
def unwrapResult (P : Params) (ivSel : Bool) (sn : Snapshot) : Result :=
  match unwrapCheck P sn.klen sn.length with
  | some e => .raise e []
  | none =>
    let w := unwrapTransform P sn.key (semiblockOf (sn.data.take 8)) (semiblocks (sn.data.drop 8))
    if w.a ≠ icvOf ivSel sn then .raise .integrityCheckFailed w.calls
    else .success (joinSemiblocks w.r) w.calls

/-- UNWRAP under the parameters `P`. -/
def execUnwrapIn (P : Params) (ivSel : Bool) (s : State) : Host.Outcome State Fault Refusal :=
  let f := inFlight P (encode (.unwrap ivSel)) s
  .next (complete P (unwrapResult P ivSel f.1) f.2)

/-- UNWRAP (R112). -/
def execUnwrap (ivSel : Bool) (s : State) : Host.Outcome State Fault Refusal :=
  execUnwrapIn Config.params ivSel s

end Sys2Proof.Machine
end

