-- ==== Sys2Proof/Machine/PaddedKeyWrap.lean ====
section
/-! DEFINITION. The RFC 5649 commands WRAP_PAD and UNWRAP_PAD (41_padded_keywrap.md R130 to R138). -/

namespace Sys2Proof.Machine

/-- `AIV = A65959A6 || be32(m)` (R130). -/
def aivOf (m : Nat) : Semiblock := aivPrefix ++ BitVec.ofNat 32 m

/-- `padLen = (8 - m % 8) % 8` (R131). -/
def padLen (m : Nat) : Nat := (8 - m % 8) % 8

/-- `padded = p || zeros(padLen)` (R131). -/
def pad (p : List Byte) : List Byte := p ++ List.replicate (padLen p.length) 0

/-- `ceil(m / 8)` (R131). -/
def paddedSemiblocks (m : Nat) : Nat := (m + 7) / 8

/-- The checks of WRAP_PAD in their order (R134). -/
def wrapPadCheck (P : Params) (klen : Byte) (m : Nat) : Option ErrCode :=
  if keyLengthLegal klen = false then some .invalidKeyLength
  else if m = 0 ∨ m > 2 ^ 32 - 1 then some .invalidPlaintextLength
  else if paddedSemiblocks m > P.sbMax then some .invalidPlaintextLength
  else none

/-- WRAP_PAD as a pure function of the snapshot (R135): the single-block shortcut (R132) for n = 1, else W. -/
def wrapPadResult (P : Params) (sn : Snapshot) : Result :=
  match wrapPadCheck P sn.klen sn.length with
  | some e => .raise e []
  | none =>
    let aiv := aivOf sn.length
    let padded := pad sn.data
    if padded.length / 8 = 1 then
      let x := blockPair aiv (semiblockOf padded)
      .success (blockBytes (cipher P .enc sn.key x)) [⟨.enc, sn.key, x⟩]
    else
      let w := wrapTransform P sn.key aiv (semiblocks padded)
      .success w.output w.calls

/-- WRAP_PAD under the parameters `P`. -/
def execWrapPadIn (P : Params) (s : State) : Host.Outcome State Fault Refusal :=
  let f := inFlight P (encode .wrapPad) s
  .next (complete P (wrapPadResult P f.1) f.2)

/-- WRAP_PAD (R135). -/
def execWrapPad (s : State) : Host.Outcome State Fault Refusal := execWrapPadIn Config.params s

/-- AIVCHECK (R138): the MLI if every test passes. -/
def aivCheck (aiv : Semiblock) (padded : List Byte) : Option Nat :=
  let mli := (aiv.extractLsb' 0 32).toNat
  if aiv.extractLsb' 32 32 ≠ aivPrefix then none
  else if ¬ (1 ≤ mli ∧ mli ≤ padded.length) then none
  else if ¬ (padded.length - mli < 8) then none
  else if (padded.drop mli).any (· != 0) then none
  else some mli

/-- The checks of UNWRAP_PAD in their order (R136). -/
def unwrapPadCheck (P : Params) (klen : Byte) (len : Nat) : Option ErrCode :=
  if keyLengthLegal klen = false then some .invalidKeyLength
  else if ¬ (len = 16 ∨ (len % 8 = 0 ∧ 24 ≤ len)) then some .invalidWrappedLength
  else if 24 ≤ len ∧ len / 8 - 1 > P.sbMax then some .invalidWrappedLength
  else none

/-- What UNWRAP_PAD recovers before its check: AIV', the padded bytes and the cipher calls made; the single-block
shortcut for L = 16 (R133), else U (R137). -/
def recoverPadded (P : Params) (sn : Snapshot) : Semiblock × List Byte × List CipherCall :=
  if sn.length = 16 then
    let c := blockOf sn.data
    let b := cipher P .dec sn.key c
    (msb64 b, semiblockBytes (lsb64 b), [⟨.dec, sn.key, c⟩])
  else
    let w := unwrapTransform P sn.key (semiblockOf (sn.data.take 8)) (semiblocks (sn.data.drop 8))
    (w.a, joinSemiblocks w.r, w.calls)

/-- UNWRAP_PAD as a pure function of the snapshot (R137). -/
def unwrapPadResult (P : Params) (sn : Snapshot) : Result :=
  match unwrapPadCheck P sn.klen sn.length with
  | some e => .raise e []
  | none =>
    let rec3 := recoverPadded P sn
    match aivCheck rec3.1 rec3.2.1 with
    | none => .raise .integrityCheckFailed rec3.2.2
    | some mli => .success (rec3.2.1.take mli) rec3.2.2

/-- UNWRAP_PAD under the parameters `P`. -/
def execUnwrapPadIn (P : Params) (s : State) : Host.Outcome State Fault Refusal :=
  let f := inFlight P (encode .unwrapPad) s
  .next (complete P (unwrapPadResult P f.1) f.2)

/-- UNWRAP_PAD (R137). -/
def execUnwrapPad (s : State) : Host.Outcome State Fault Refusal := execUnwrapPadIn Config.params s

end Sys2Proof.Machine
end

