-- ==== Sys2Proof/Machine/Dispatch.lean ====
section
/-! DEFINITION. The meaning of every command, one arm per constructor of `Instr` (42_host_commands.md R162). -/

namespace Sys2Proof.Machine

def exec (i : Instr) (s : State) : Host.Outcome State Fault Refusal :=
  match i with
  | .wrap ivSel => Sys2Proof.Machine.execWrap ivSel s
  | .unwrap ivSel => Sys2Proof.Machine.execUnwrap ivSel s
  | .wrapPad => Sys2Proof.Machine.execWrapPad s
  | .unwrapPad => Sys2Proof.Machine.execUnwrapPad s
  | .illegal w => Sys2Proof.Machine.execIllegal w s

end Sys2Proof.Machine
end

