-- ==== Sys2Proof/Machine/Bus.lean ====
section
/-! DEFINITION. The host interface: the register map (10_state.md R21), register and buffer accesses, BUS_ERR, and
the writes lost while BUSY (20_memory.md R50 to R55, 42_host_commands.md R163, R164). -/

namespace Sys2Proof.Machine

/-- The register map of R21; every other aligned offset is reserved (R29). -/
def regMap : List (Nat × Reg) :=
  [(0x00, .cmd), (0x04, .status), (0x08, .kekLen), (0x10, .ivHi), (0x14, .ivLo), (0x18, .inLenLo), (0x1C, .inLenHi),
   (0x20, .outLenLo), (0x24, .outLenHi), (0x40, .kekW 0), (0x44, .kekW 1), (0x48, .kekW 2), (0x4C, .kekW 3),
   (0x50, .kekW 4), (0x54, .kekW 5), (0x58, .kekW 6), (0x5C, .kekW 7)]

/-- The register at an aligned REG offset. -/
def regAt (off : Nat) : Reg := (regMap.lookup off).getD .reserved

/-- A register read (R21, R55): write-only registers and reserved offsets read 0. -/
def regRead (r : Reg) (s : State) : Word :=
  match r with
  | .cmd => 0
  | .status => s.statusWord
  | .kekLen => s.kekLen.setWidth 32
  | .ivHi => s.ivHi
  | .ivLo => s.ivLo
  | .inLenLo => s.inLenLo
  | .inLenHi => s.inLenHi
  | .outLenLo => s.outLenLo
  | .outLenHi => s.outLenHi
  | .kekW _ => 0
  | .reserved => 0

/-- A register write while IDLE (R21, R22, R55): CMD issues a command; read-only registers and reserved offsets
ignore it; KEK_LEN keeps bits 7:0. -/
def regWrite (P : Params) (r : Reg) (v : Word) (s : State) : State :=
  match r with
  | .cmd => accept P v s
  | .status => s
  | .kekLen => { s with kekLen := v.setWidth 8 }
  | .ivHi => { s with ivHi := v }
  | .ivLo => { s with ivLo := v }
  | .inLenLo => { s with inLenLo := v }
  | .inLenHi => { s with inLenHi := v }
  | .outLenLo => s
  | .outLenHi => s
  | .kekW w => { s with kek := s.kek.set w v }
  | .reserved => s

/-- Which accesses answer OK (R52): all others answer BUS_ERR. -/
def accessOk (P : Params) (sp : Space) (off width : Nat) : Bool :=
  match sp with
  | .reg => off % 4 == 0 && decide (off ≤ 0x7C) && width == 4
  | .ibuf => decide (off < P.bufBytes) && width == 1
  | .obuf => decide (off < P.bufBytes) && width == 1

/-- The data of a legal read (R53, R54, R55); no read changes anything (R59). -/
def busRead (P : Params) (sp : Space) (off : Nat) (s : State) : Word :=
  match sp with
  | .reg => regRead (regAt off) s
  | .ibuf => (s.ibufAt P off).setWidth 32
  | .obuf => (s.obufAt off).setWidth 32

/-- A legal write while IDLE (R53, R54, R55). -/
def busWrite (P : Params) (sp : Space) (off : Nat) (v : Word) (s : State) : State :=
  match sp with
  | .reg => regWrite P (regAt off) v s
  | .ibuf => { s with ibuf := Memory.write Space.ibuf.blank s.ibuf off (v.setWidth 8) }
  | .obuf => s

/-- The engine answers a transaction. -/
def State.answer (s : State) (resp : BusResponse) (data : Option Word) : State :=
  { s with answers := ⟨resp, data⟩ :: s.answers }

/-- The host program is flagged as faulted; its first fault is kept (R52, R250; log 6). -/
def State.flag (s : State) (f : HostFault) : State :=
  { s with hostFault := some (s.hostFault.getD f) }

/-- One bus transaction (R51 to R55, R163, R164). The BUS_ERR cases come first (log 7). -/
def serveBus (P : Params) (t : Transaction) (s : State) : State :=
  match t with
  | .memRead sp off width =>
    if accessOk P sp off width then s.answer .ok (some (busRead P sp off s))
    else (s.flag .busError).answer .busErr (some 0)
  | .memWrite sp off width v =>
    if accessOk P sp off width then
      if s.isBusy then (s.flag .writeWhileBusy).answer .ok none
      else (busWrite P sp off v s).answer .ok none
    else (s.flag .busError).answer .busErr none

/-- One host event. -/
def serve (P : Params) (e : HostEvent) (s : State) : State :=
  match e with
  | .bus t => serveBus P t s
  | .rst => resetEngine s

/-- The host's turn: its oldest pending event is performed; with none pending nothing happens (R242). -/
def hostTurn (P : Params) (s : State) : State :=
  match s.inbox with
  | [] => s
  | e :: rest => serve P e { s with inbox := rest }

end Sys2Proof.Machine
end

