-- ==== Sys2Proof/Machine/Sequencer.lean ====
section
/-! DEFINITION. Which agent moves (10_state.md R20; 20_memory.md R62; 42_host_commands.md R163, R165), and how a
command word is put in flight from outside. -/

namespace Sys2Proof.Machine

/-- One step, with `run` the meaning of a decoded command. IDLE: the host's turn (R242). BUSY with host turns left
before completion: the host's turn (R163). BUSY with none left: COMPLETE (R165), on the command the snapshot's word
decodes to (R162). -/
def stepWith (P : Params) (run : Instr → State → Host.Outcome State Fault Refusal) (s : State) :
    Host.Outcome State Fault Refusal :=
  match s.phase with
  | .idle => .next (hostTurn P s)
  | .busy sn (left + 1) => .next (hostTurn P { s with phase := .busy sn left })
  | .busy sn 0 => run (decode sn.word) s

/-- `s` with the command word `w` accepted and its completion due at the very next step (log 9). -/
def putInFlight (P : Params) (nbits w : Nat) (s : State) : State :=
  acceptIn P (BitVec.ofNat 32 (w % 2 ^ nbits)) 0 s

end Sys2Proof.Machine
end

