-- ==== Sys2Proof/Machine/Step.lean ====
section
/-! DEFINITION. The step of the machine, and the host's way to put a command word where the next step runs it. -/

namespace Sys2Proof.Machine

/-- One step of the machine. -/
def step (s : State) : Host.Outcome State Fault Refusal := stepWith Config.params exec s

/-- The command word of an opcode-table row put in flight, so that the next step runs it (log 9). -/
def State.withFetchWord (s : State) (nbits w : Nat) : State := putInFlight Config.params nbits w s

end Sys2Proof.Machine
end

