-- ==== Sys2Proof/Machine/Exec.lean ====
section
/-! DEFINITION. EXEC as a pure function (42_host_commands.md R162), and the commands under any choice of the
parameters (00_scope.md R9): `exec` is `execIn Config.params`. -/

namespace Sys2Proof.Machine

/-- The result of a command (R162). -/
def resultOf (P : Params) (i : Instr) (sn : Snapshot) : Result :=
  match i with
  | .wrap ivSel => wrapResult P ivSel sn
  | .unwrap ivSel => unwrapResult P ivSel sn
  | .wrapPad => wrapPadResult P sn
  | .unwrapPad => unwrapPadResult P sn
  | .illegal _ => illegalResult

/-- `EXEC(snapshot)` (R162): the word decides the command. -/
def execResult (P : Params) (sn : Snapshot) : Result := resultOf P (decode sn.word) sn

/-- A command's meaning under the parameters `P`. -/
def execIn (P : Params) (i : Instr) (s : State) : Host.Outcome State Fault Refusal :=
  match i with
  | .wrap ivSel => execWrapIn P ivSel s
  | .unwrap ivSel => execUnwrapIn P ivSel s
  | .wrapPad => execWrapPadIn P s
  | .unwrapPad => execUnwrapPadIn P s
  | .illegal w => execIllegalIn P w s

end Sys2Proof.Machine
end

