-- ==== Sys2Proof/Machine/HostProgram.lean ====
section
/-! DEFINITION. The host program notation as lists of host events (30_encoding.md R76, R77). The host's own control
flow (BNZ) is not the engine's: WAIT is given as the number of STATUS reads it makes. -/

namespace Sys2Proof.Machine

/-- `off(<REG>)` (R76); the reserved offsets have no name and stand at 0x0C. -/
def Reg.offset : Reg → Nat
  | .cmd => 0x00
  | .status => 0x04
  | .kekLen => 0x08
  | .ivHi => 0x10
  | .ivLo => 0x14
  | .inLenLo => 0x18
  | .inLenHi => 0x1C
  | .outLenLo => 0x20
  | .outLenHi => 0x24
  | .kekW w => 0x40 + 4 * w.val
  | .reserved => 0x0C

/-- `WR <REG>, <imm32>` (R76). -/
def hostWr (r : Reg) (v : Word) : HostEvent := .bus (.memWrite .reg r.offset 4 v)

/-- `RD <REG>` (R76). -/
def hostRd (r : Reg) : HostEvent := .bus (.memRead .reg r.offset 4)

/-- `WRB IBUF[<off>], <imm8>` (R76). -/
def hostWrb (off : Nat) (b : Byte) : HostEvent := .bus (.memWrite .ibuf off 1 (b.setWidth 32))

/-- `RDB IBUF[<off>]` and `RDB OBUF[<off>]` (R76). -/
def hostRdb (sp : Space) (off : Nat) : HostEvent := .bus (.memRead sp off 1)

/-- The writes of a byte string into IBUF from cell `q` on. -/
def hostWrbs : Nat → List Byte → List HostEvent
  | _, [] => []
  | q, b :: d => hostWrb q b :: hostWrbs (q + 1) d

/-- Word w of a key padded with zero bytes: `uint_be(kpad[4w:4w+4])` (R77). -/
def kekWordOf (k : List Byte) (w : Nat) : Word :=
  BitVec.ofNat 32 (uintBe (((k ++ List.replicate (32 - k.length) 0).drop (4 * w)).take 4))

/-- `SETKEK k` (R77). -/
def setKek (k : List Byte) : List HostEvent :=
  ((List.finRange 8).map fun w => hostWr (.kekW w) (kekWordOf k w.val)) ++ [hostWr .kekLen (BitVec.ofNat 32 k.length)]

/-- `SETIV v` (R77). -/
def setIv (v : List Byte) : List HostEvent :=
  [hostWr .ivHi (BitVec.ofNat 32 (uintBe (v.take 4))), hostWr .ivLo (BitVec.ofNat 32 (uintBe ((v.drop 4).take 4)))]

/-- `LOADIN d` (R77). -/
def loadIn (d : List Byte) : List HostEvent :=
  hostWrbs 0 d ++
    [hostWr .inLenLo (BitVec.ofNat 32 (d.length % 2 ^ 32)), hostWr .inLenHi (BitVec.ofNat 32 (d.length / 2 ^ 32))]

/-- `RUN <mnemonic>[.IV]` (R77): the command's word written to CMD. -/
def runCommand (i : Instr) : List HostEvent := [hostWr .cmd (encode i)]

/-- `WAIT` (R77), as `polls` reads of STATUS. -/
def waitPolls (polls : Nat) : List HostEvent := List.replicate polls (hostRd .status)

/-- `READOUT` (R77), for an OUT_LEN that read as `n`. -/
def readOut (n : Nat) : List HostEvent :=
  [hostRd .outLenLo, hostRd .outLenHi] ++ (List.range n).map (hostRdb .obuf)

/-- Host events performed one after another on an engine that takes no step of its own between them (R62). -/
def serveAll (P : Params) (es : List HostEvent) (s : State) : State := es.foldl (fun u e => serve P e u) s

end Sys2Proof.Machine
end

