-- ==== Sys2Proof/Safety.lean ====
section
/-! DEFINITION. What claims are stated in: the invariant of the engine, and what a faultless host run is. -/

namespace Sys2Proof.Machine

/-- OUT_LEN and OBUF show no result (42_host_commands.md R160, R166). -/
structure State.NoResult (s : State) : Prop where
  outLenLo : s.outLenLo = 0
  outLenHi : s.outLenHi = 0
  obuf : s.obuf = []

/-- The invariant of the engine under the parameters `P`. -/
structure State.Inv (P : Params) (s : State) : Prop where
  /-- IBUF is in canonical form and inside its window (10_state.md R30). -/
  ibufForm : Memory.wf Space.ibuf.blank s.ibuf ∧ Memory.within P.bufBytes s.ibuf
  /-- OBUF is in canonical form and inside its window (R31). -/
  obufForm : Memory.wf Space.obuf.blank s.obuf ∧ Memory.within P.bufBytes s.obuf
  /-- While BUSY: DONE = 0 and ERR = 0 (R23), no result is shown (42_host_commands.md R163), and the snapshot equals
  the live registers (10_state.md R33). -/
  busy : ∀ sn left, s.phase = .busy sn left →
    s.done = false ∧ s.err = .none ∧ s.NoResult ∧ sn = capture P sn.word s
  /-- Before the first completion since reset, ERR = 0 and no result is shown (R23, 70_reset_and_hazards.md R240). -/
  notDone : s.done = false → s.err = .none ∧ s.NoResult
  /-- A failed command shows no result (42_host_commands.md R166). -/
  failed : s.err ≠ .none → s.NoResult
  /-- OBUF cells at OUT_LEN and above hold 0x00 (10_state.md R31), for buffers whose lengths OUT_LEN can hold. -/
  beyond : P.bufBytes < 2 ^ 64 → ∀ q, s.outLen.toNat ≤ q → s.obufAt q = 0

/-- The host has done nothing the spec gives no meaning to: it received no BUS_ERR (20_memory.md R52) and wrote
nothing while BUSY (70_reset_and_hazards.md R250). A claim about a host program assumes it (log 6). -/
def State.HostSafe (s : State) : Prop := s.hostFault = none

/-- The engine part of two states is the same: every field but the host's own (inbox, answers, host fault). -/
def State.SameEngine (s t : State) : Prop :=
  t = { s with inbox := t.inbox, answers := t.answers, hostFault := t.hostFault }

/-- The legal key lengths in bytes (00_scope.md R9). -/
abbrev LegalKeyLength (n : Nat) : Prop := n = 16 ∨ n = 24 ∨ n = 32

/-- `t` is the state COMPLETE leaves of `s` after a command that succeeded with the bytes `out`
(42_host_commands.md R165, R166; STATUS as in 40_keywrap.md R109). -/
structure State.Commits (s t : State) (out : List Byte) : Prop where
  /-- STATUS = 0x00000002: DONE, ERR = NONE. -/
  status : t.statusWord = 0x00000002
  idle : t.phase = .idle
  /-- OBUF[0 : len(out)] holds out. -/
  stored : t.obufBytes out.length = out
  /-- Every other OBUF cell reads as before. -/
  beyond : ∀ q, out.length ≤ q → t.obufAt q = s.obufAt q
  /-- OUT_LEN = len(out), where 64 bits can hold it; its low word always (log 10). -/
  outLen : out.length < 2 ^ 64 → t.outLen = BitVec.ofNat 64 out.length
  outLenLo : t.outLenLo = BitVec.ofNat 32 out.length
  /-- Nothing else is written: every operand register, KEK, IBUF and host field is as in `s`. -/
  frame : t = { s with
    phase := t.phase, done := t.done, err := t.err, obuf := t.obuf, outLenLo := t.outLenLo, outLenHi := t.outLenHi }

/-- `t` is the state COMPLETE leaves of `s` after a command that failed with the numeric error code `code`
(42_host_commands.md R166, 60_exceptions.md R212). -/
structure State.Fails (s t : State) (code : Nat) : Prop where
  /-- STATUS = 0x00000002 | (code << 8). -/
  status : t.statusWord = BitVec.ofNat 32 (2 + 256 * code)
  idle : t.phase = .idle
  /-- OUT_LEN = 0 and OBUF all zero. -/
  noResult : t.NoResult
  /-- Nothing else is written. -/
  frame : t = { s with phase := t.phase, done := t.done, err := t.err }

/-- The tests of AIVCHECK (41_padded_keywrap.md R138), all passed with MLI = m. -/
structure AivPasses (aiv : Semiblock) (padded : List Byte) (m : Nat) : Prop where
  head : aiv.extractLsb' 32 32 = 0xA65959A6
  mli : m = (aiv.extractLsb' 0 32).toNat
  atLeastOne : 1 ≤ m
  atMostAll : m ≤ padded.length
  padBytes : padded.length - m < 8
  padZero : ∀ q, m ≤ q → q < padded.length → padded[q]? = some 0

/-- `k = KEKBYTES[0 : LEN]` read from the live registers (30_encoding.md R72). -/
def State.key (s : State) : List Byte := (kekBytes s.kek).take s.kekLen.toNat

/-- The integrity value of WRAP and UNWRAP read from the live registers (40_keywrap.md R107). -/
def State.icv (s : State) (ivSel : Bool) : Semiblock := if ivSel then s.iv else 0xA6A6A6A6A6A6A6A6

/-- `AIV = A65959A6 || be32(m)` (41_padded_keywrap.md R130). -/
def specAiv (m : Nat) : Semiblock := (0xA65959A6 : BitVec 32) ++ BitVec.ofNat 32 m

/-- The meaning of commands: `exec` is one, `execIn P` is one for each choice of the parameters. -/
abbrev Run := Instr → State → Host.Outcome State Fault Refusal

end Sys2Proof.Machine
end

