-- ==== Sys2Proof/WellFormed.lean ====
section
/-! DEFINITION. Which terms of `Instr` stand for a command word: an `illegal` term must carry a word that is not
legal (30_encoding.md R73, R74); every other term is well formed. -/

namespace Sys2Proof

/-- The well-formedness check. -/
def Instr.wf : Instr → Bool
  | .wrap _ => true
  | .unwrap _ => true
  | .wrapPad => true
  | .unwrapPad => true
  | .illegal w => !legal w

end Sys2Proof
end

