-- ==== Sys2Proof/Certificates/Slice0/Obligations.lean ====
section
/-! DEFINITION. The statements for the provers. Each docstring names the rule of spec/ a statement formalises.
`exec` and `step` are this machine's; `execIn P` and `stepWith P (execIn P)` are the same machine under any choice
`P` of the parameters of 00_scope.md R9. A claim that needs the cipher law of 40_keywrap.md R101 takes it as a named
hypothesis on `P`. No claim rests on the value of a free value. -/

open Sys2Proof Sys2Proof.Machine

/-! Encoding. -/

/-- R73, R75: decoding an encoded well-formed command gives the command back, with IV_SEL at both values and every
illegal word kept; so does the host's table decoder. -/
def Obligations.DecodeInvertsEncode : Prop :=
  ∀ i : Instr, i.wf = true → decode (encode i) = i ∧ decodeTableWord 32 (encode i).toNat = some i

/-- R75: every one of the 2^32 words decodes to one well-formed command, which encodes back to that word. -/
def Obligations.EncodeInvertsDecode : Prop :=
  ∀ w : Word, encode (decode w) = w ∧ (decode w).wf = true

/-- R73, R74: the legal words are exactly the six of the rule's table, each decoding to its command; every other
word is an illegal command. -/
def Obligations.SixLegalWords : Prop :=
  (∀ w : Word, legal w = true ↔
    (w.extractLsb' 5 27 = 0 ∧ (w.extractLsb' 0 4 = 1 ∨ w.extractLsb' 0 4 = 2 ∨
      ((w.extractLsb' 0 4 = 3 ∨ w.extractLsb' 0 4 = 4) ∧ w.getLsbD 4 = false)))) ∧
  (∀ w : Word, legal w = true ↔
    w = 0x00000001 ∨ w = 0x00000011 ∨ w = 0x00000002 ∨ w = 0x00000012 ∨ w = 0x00000003 ∨ w = 0x00000004) ∧
  decode 0x00000001 = .wrap false ∧ decode 0x00000011 = .wrap true ∧
  decode 0x00000002 = .unwrap false ∧ decode 0x00000012 = .unwrap true ∧
  decode 0x00000003 = .wrapPad ∧ decode 0x00000004 = .unwrapPad ∧
  (∀ w : Word, legal w = false → decode w = .illegal w)

/-- R70, R74: a few words written out from the opcode map and from the table of 95_test_vectors.md section 2.6. -/
def Obligations.WordsDecodeAsTabled : Prop :=
  decodeTableWord 32 0b00000000000000000000000000000001 = some (.wrap false) ∧
  decodeTableWord 32 0b00000000000000000000000000010010 = some (.unwrap true) ∧
  decodeTableWord 32 0b00000000000000000000000000000011 = some .wrapPad ∧
  decodeTableWord 32 0b00000000000000000000000000000100 = some .unwrapPad ∧
  decodeTableWord 32 0b00000000000000000000000000010011 = some (.illegal 0x13) ∧
  decodeTableWord 32 0b10000000000000000000000000000010 = some (.illegal 0x80000002)

/-! Reset. -/

/-- R240: the state after reset, register by register; and, until the host writes KEK_LEN, every legal command completes
with INVALID_KEY_LENGTH: KEK_LEN stays 0 over every step but the host's write of it, and a legal command accepted or in
flight in any state (the latter under the invariant) with KEK_LEN = 0 ends with that code. -/
def Obligations.ResetStateAsSpecified : Prop :=
  State.reset.phase = .idle ∧ State.reset.statusWord = 0x00000000 ∧ State.reset.kekLen = 0 ∧
  State.reset.kek = Vector.replicate 8 0 ∧ State.reset.ivHi = 0 ∧ State.reset.ivLo = 0 ∧
  State.reset.inLenLo = 0 ∧ State.reset.inLenHi = 0 ∧ State.reset.outLenLo = 0 ∧ State.reset.outLenHi = 0 ∧
  (∀ q, State.reset.obufAt q = 0) ∧
  (∀ s t : State, s.kekLen = 0 → (s.phase = .idle → ∀ v, s.inbox.head? ≠ some (.bus (.memWrite .reg 0x08 4 v))) →
    step s = .next t → t.kekLen = 0) ∧
  (∀ (s : State) (w : Word), s.phase = .idle → s.kekLen = 0 → legal w = true →
    ∃ t, exec (decode w) (accept Config.params w s) = .next t ∧ t.statusWord = 0x00000102) ∧
  (∀ (s : State) (sn : Snapshot) (left : Nat), s.Inv Config.params → s.phase = .busy sn left → s.kekLen = 0 →
    legal sn.word = true → ∃ t, exec (decode sn.word) s = .next t ∧ t.statusWord = 0x00000102)

/-- R241: after reset each IBUF cell holds its draw, which no rule fixes: each byte is the value of some configuration
R9 allows (the draw is the model's free value, log 4). -/
def Obligations.IbufUnspecifiedAfterReset : Prop :=
  (∀ (P : Params) (q : Nat), State.reset.ibufAt P q = P.ibufDraw 0 q) ∧
  (∀ (q : Nat) (b : Byte), ∃ P : Params, P.Legal ∧ State.reset.ibufAt P q = b)

/-- R240, R243: a reset event, in IDLE or BUSY, leaves every register, OBUF, the phase and STATUS as after reset, and
drops the command in flight with no result. Three points are the model's choice: each IBUF cell holds the next draw
(log 4), the host's other pending events stay pending (log 12), and a BUSY state with no host turn left is no premise,
since COMPLETE moves first there (log 3). -/
def Obligations.ResetEventAbortsCommand : Prop :=
  ∀ (P : Params) (run : Run) (s : State) (rest : List HostEvent),
    s.inbox = .rst :: rest → (∀ sn, s.phase ≠ .busy sn 0) →
    ∃ t, stepWith P run s = .next t ∧ t.phase = .idle ∧ t.statusWord = 0x00000000 ∧ t.kekLen = 0 ∧
      t.kek = Vector.replicate 8 0 ∧ t.iv = 0 ∧ t.inLen = 0 ∧ t.outLen = 0 ∧ (∀ q, t.obufAt q = 0) ∧
      (∀ q, t.ibufAt P q = P.ibufDraw (s.resets + 1) q) ∧ t.inbox = rest

/-! The bus. -/

/-- R52, R51: in each listed case the answer is BUS_ERR (with data 0 for a read) and the engine's state does not
change; in every other case the answer is OK. That a write with a bad address or width answers BUS_ERR while BUSY too
is the model's reading (log 7); the host fault is the model's flag (log 6). -/
def Obligations.BusErrorsAsListed : Prop :=
  ∀ (P : Params) (s : State) (sp : Space) (off width : Nat) (v : Word),
    let bad := (sp = .reg ∧ (off % 4 ≠ 0 ∨ 0x7C < off ∨ width ≠ 4)) ∨ (sp ≠ .reg ∧ (P.bufBytes ≤ off ∨ width ≠ 1))
    let r := serveBus P (.memRead sp off width) s
    let w := serveBus P (.memWrite sp off width v) s
    (bad → s.SameEngine r ∧ r.answers = ⟨.busErr, some 0⟩ :: s.answers ∧ r.inbox = s.inbox ∧
      r.hostFault = some (s.hostFault.getD .busError) ∧
      s.SameEngine w ∧ w.answers = ⟨.busErr, none⟩ :: s.answers ∧ w.inbox = s.inbox ∧
      w.hostFault = some (s.hostFault.getD .busError)) ∧
    (¬ bad → (∃ x, r.answers = ⟨.ok, some x⟩ :: s.answers) ∧ w.answers = ⟨.ok, none⟩ :: s.answers)

/-- R53: a read of IBUF returns the cell in either phase; a write while IDLE sets that cell and no other, and nothing
else in the machine changes; a write while BUSY is ignored and answers OK; and no command ever writes IBUF. -/
def Obligations.IbufWriteSetsOneCell : Prop :=
  ∀ (P : Params) (s : State) (off : Nat) (v : Word), s.Inv P → off < P.bufBytes →
    let w := serveBus P (.memWrite .ibuf off 1 v) s
    (serveBus P (.memRead .ibuf off 1) s).answers = ⟨.ok, some ((s.ibufAt P off).setWidth 32)⟩ :: s.answers ∧
    (s.phase = .idle →
      w = { s with ibuf := w.ibuf, answers := ⟨.ok, none⟩ :: s.answers } ∧
      (∀ q, w.ibufAt P q = if q = off then v.setWidth 8 else s.ibufAt P q) ∧
      (serveBus P (.memRead .ibuf off 1) w).answers = ⟨.ok, some ((v.setWidth 8 : Byte).setWidth 32)⟩ :: w.answers) ∧
    (s.isBusy = true → s.SameEngine w ∧ w.answers = ⟨.ok, none⟩ :: s.answers) ∧
    (∀ (i : Instr) (t : State), execIn P i s = .next t → ∀ q, t.ibufAt P q = s.ibufAt P q)

/-- R54: an OBUF read returns the cell in either phase, 0x00 while BUSY; an OBUF write is ignored and answers OK. -/
def Obligations.ObufReadOnly : Prop :=
  ∀ (P : Params) (s : State) (off : Nat) (v : Word), s.Inv P → off < P.bufBytes →
    let w := serveBus P (.memWrite .obuf off 1 v) s
    (serveBus P (.memRead .obuf off 1) s).answers = ⟨.ok, some ((s.obufAt off).setWidth 32)⟩ :: s.answers ∧
    (s.isBusy = true → s.obufAt off = 0) ∧
    s.SameEngine w ∧ w.answers = ⟨.ok, none⟩ :: s.answers ∧
    (s.phase = .idle → w = { s with answers := ⟨.ok, none⟩ :: s.answers })

/-- R21, R55: what a read of each aligned REG offset returns. -/
def Obligations.RegisterReadsAsMapped : Prop :=
  ∀ (P : Params) (s : State) (off : Nat), off % 4 = 0 → off ≤ 0x7C →
    (serveBus P (.memRead .reg off 4) s).answers = ⟨.ok, some (
      if off = 0x04 then s.statusWord
      else if off = 0x08 then s.kekLen.setWidth 32
      else if off = 0x10 then s.ivHi
      else if off = 0x14 then s.ivLo
      else if off = 0x18 then s.inLenLo
      else if off = 0x1C then s.inLenHi
      else if off = 0x20 then s.outLenLo
      else if off = 0x24 then s.outLenHi
      else 0)⟩ :: s.answers

/-- R24, R25, R26, R28, R55: what an aligned REG write while IDLE does, offset by offset (a CMD write is the claim
CmdWriteAccepts): the one register named is written, and every other offset is ignored. -/
def Obligations.RegisterWritesAsMapped : Prop :=
  ∀ (P : Params) (s : State) (off : Nat) (v : Word), s.phase = .idle → off % 4 = 0 → off ≤ 0x7C → off ≠ 0x00 →
    let a := ⟨.ok, none⟩ :: s.answers
    let w := serveBus P (.memWrite .reg off 4 v) s
    (off = 0x08 → w = { s with kekLen := v.extractLsb' 0 8, answers := a }) ∧
    (off = 0x10 → w = { s with ivHi := v, answers := a }) ∧
    (off = 0x14 → w = { s with ivLo := v, answers := a }) ∧
    (off = 0x18 → w = { s with inLenLo := v, answers := a }) ∧
    (off = 0x1C → w = { s with inLenHi := v, answers := a }) ∧
    (∀ x : Fin 8, off = 0x40 + 4 * x.val → w = { s with kek := s.kek.set x v, answers := a }) ∧
    (off = 0x04 ∨ off = 0x0C ∨ (0x20 ≤ off ∧ off ≤ 0x3C) ∨ 0x60 ≤ off → w = { s with answers := a })

/-- R59: no read has a side effect; the answer is recorded, and a read that gets BUS_ERR flags the host. -/
def Obligations.ReadsHaveNoSideEffect : Prop :=
  ∀ (P : Params) (s : State) (sp : Space) (off width : Nat),
    s.SameEngine (serveBus P (.memRead sp off width) s) ∧
    (accessOk P sp off width = true → (serveBus P (.memRead sp off width) s).hostFault = s.hostFault)

/-- R160: a CMD write while IDLE, of any word, answers OK, captures the operands as they stand (R33), clears OBUF,
OUT_LEN and STATUS to BUSY, and writes nothing else; and in every BUSY state a host read of STATUS returns
0x00000001, of OUT_LEN 0, and of OBUF 0x00. How long the command takes (`left`) and the counter of accepted commands are
the model's own (log 3) and no part of the claim. -/
def Obligations.CmdWriteAccepts : Prop :=
  (∀ (P : Params) (s : State) (w : Word), s.phase = .idle →
    let r := serveBus P (.memWrite .reg 0x00 4 w) s
    ∃ sn left,
      r = { s with
        phase := .busy sn left, done := false, err := .none, obuf := [], outLenLo := 0, outLenHi := 0
        answers := ⟨.ok, none⟩ :: s.answers, accepted := r.accepted } ∧
      r.statusWord = 0x00000001 ∧ (∀ q, r.obufAt q = 0) ∧
      sn.word = w ∧ sn.klen = s.kekLen ∧ sn.kek = kekBytes s.kek ∧ sn.iv = s.iv ∧ sn.inlen = s.inLen ∧
      sn.data = s.ibufBytes P (min s.inLen.toNat P.bufBytes)) ∧
  (∀ (P : Params) (s : State), s.Inv P → s.isBusy = true →
    (serveBus P (.memRead .reg 0x04 4) s).answers = ⟨.ok, some 0x00000001⟩ :: s.answers ∧
    (serveBus P (.memRead .reg 0x20 4) s).answers = ⟨.ok, some 0⟩ :: s.answers ∧
    (serveBus P (.memRead .reg 0x24 4) s).answers = ⟨.ok, some 0⟩ :: s.answers ∧
    ∀ off, off < P.bufBytes → (serveBus P (.memRead .obuf off 1) s).answers = ⟨.ok, some 0⟩ :: s.answers)

/-- R163, R164: while BUSY every write the bus accepts (of CMD, a register, IBUF or OBUF) is ignored and answers OK:
no engine state changes, and the host is flagged (R250; log 6). -/
def Obligations.BusyWritesIgnored : Prop :=
  ∀ (P : Params) (s : State) (sp : Space) (off width : Nat) (v : Word),
    s.isBusy = true → accessOk P sp off width = true →
    serveBus P (.memWrite sp off width v) s =
      { s with
          answers := ⟨.ok, none⟩ :: s.answers
          hostFault := some (s.hostFault.getD .writeWhileBusy) }

/-- R23: the only STATUS values the engine ever shows, and what they say of the phase; BUSY and DONE never hold
together. -/
def Obligations.StatusShowsOnlyThese : Prop :=
  ∀ (P : Params) (s : State), s.Inv P →
    (s.statusWord = 0x00000000 ∨ s.statusWord = 0x00000001 ∨
      ∃ e : Nat, e ≤ 5 ∧ s.statusWord = 0x00000002 ||| BitVec.ofNat 32 (e * 256)) ∧
    (s.statusWord = 0x00000001 ↔ s.phase ≠ .idle) ∧
    ¬ (s.statusWord.getLsbD 0 = true ∧ s.statusWord.getLsbD 1 = true)

/-- R28: the host cannot read the key. Two engines that differ only in the KEK words give the same answers to every
sequence of host events that issues no command. -/
def Obligations.KeyNeverReadBack : Prop :=
  ∀ (P : Params) (es : List HostEvent) (s : State) (k : Vector Word 8),
    (∀ e ∈ es, ∀ v, e ≠ .bus (.memWrite .reg 0x00 4 v)) →
    (serveAll P es { s with kek := k }).answers = (serveAll P es s).answers

/-- R169: after completion, STATUS, OUT_LEN and OBUF keep their values over every sequence of host events that holds
neither a command issue nor a reset. -/
def Obligations.ResultsPersist : Prop :=
  ∀ (P : Params) (es : List HostEvent) (s : State), s.phase = .idle →
    (∀ e ∈ es, e ≠ .rst ∧ ∀ v, e ≠ .bus (.memWrite .reg 0x00 4 v)) →
    (serveAll P es s).phase = .idle ∧ (serveAll P es s).statusWord = s.statusWord ∧
    (serveAll P es s).outLen = s.outLen ∧ ∀ q, (serveAll P es s).obufAt q = s.obufAt q

/-- R77, R28: SETKEK on an IDLE engine leaves the key in KEKBYTES, zero bytes above it, and its length in KEK_LEN; no
other engine state changes, and the host is not flagged. -/
def Obligations.SetKekLoadsKey : Prop :=
  ∀ (P : Params) (s : State) (k : List Byte), s.phase = .idle → LegalKeyLength k.length →
    let t := serveAll P (setKek k) s
    kekBytes t.kek = k ++ List.replicate (32 - k.length) 0 ∧ t.kekLen.toNat = k.length ∧
    t = { s with kek := t.kek, kekLen := t.kekLen, answers := t.answers }

/-- R77, R53, R26: LOADIN on an IDLE engine leaves the bytes in IBUF and their count in IN_LEN; every other IBUF cell
and all other engine state is as before, and the host is not flagged. -/
def Obligations.LoadInLoadsInput : Prop :=
  ∀ (P : Params) (s : State) (d : List Byte), s.Inv P → s.phase = .idle → d.length ≤ P.bufBytes → d.length < 2 ^ 64 →
    let t := serveAll P (loadIn d) s
    t.ibufBytes P d.length = d ∧ (∀ q, d.length ≤ q → t.ibufAt P q = s.ibufAt P q) ∧ t.inLen = BitVec.ofNat 64 d.length ∧
    t = { s with ibuf := t.ibuf, inLenLo := t.inLenLo, inLenHi := t.inLenHi, answers := t.answers }

/-- R244, R77, R72: SETKEK, SETIV, LOADIN and RUN on an IDLE engine put in flight exactly the command and the
operands they name. -/
def Obligations.BootOrderIssuesCommand : Prop :=
  ∀ (P : Params) (s : State) (i : Instr) (k v d : List Byte),
    s.Inv P → s.phase = .idle → LegalKeyLength k.length → v.length = 8 → d.length ≤ P.bufBytes → d.length < 2 ^ 64 →
    ∃ sn left, (serveAll P (setKek k ++ setIv v ++ loadIn d ++ runCommand i) s).phase = .busy sn left ∧
      sn.word = encode i ∧ sn.key = k ∧ sn.iv = semiblockOf v ∧ sn.inlen.toNat = d.length ∧ sn.data = d

/-! The step. -/

/-- R162, R165, R242: which agent moves. In IDLE the host; in BUSY the host until the command's latency has passed,
then COMPLETE, which runs the command the snapshot's word decodes to. R62: the host's turn performs its oldest pending
event, a bus transaction or a reset, and takes it off the list; with none pending it does nothing. -/
def Obligations.StepRunsDecodedCommand : Prop :=
  (∀ s : State, s.phase = .idle → step s = .next (hostTurn Config.params s)) ∧
  (∀ (s : State) (sn : Snapshot) (left : Nat), s.phase = .busy sn (left + 1) →
    step s = .next (hostTurn Config.params { s with phase := .busy sn left })) ∧
  (∀ (P : Params) (s : State), s.inbox = [] → hostTurn P s = s) ∧
  (∀ (P : Params) (s : State) (t : Transaction) (rest : List HostEvent), s.inbox = .bus t :: rest →
    hostTurn P s = serveBus P t { s with inbox := rest }) ∧
  (∀ (P : Params) (s : State) (rest : List HostEvent), s.inbox = .rst :: rest →
    hostTurn P s = resetEngine { s with inbox := rest }) ∧
  (∀ (s : State) (sn : Snapshot) (i : Instr), s.phase = .busy sn 0 → i.wf = true → sn.word = encode i →
    step s = exec i s) ∧
  (∀ (s : State) (i : Instr), i.wf = true →
    step (s.withFetchWord 32 (encode i).toNat) = exec i (s.withFetchWord 32 (encode i).toNat) ∧
    ∃ sn, (s.withFetchWord 32 (encode i).toNat).phase = .busy sn 0 ∧ sn.word = encode i)

/-- R242: in IDLE with no host event pending the engine takes no step of its own. -/
def Obligations.IdleEngineRests : Prop :=
  ∀ s : State, s.phase = .idle → s.inbox = [] → step s = .next s

/-- R9: this machine is one of the configurations R9 allows, and `exec` and `step` are its `execIn` and `stepWith`. -/
def Obligations.MachineIsOneConfiguration : Prop :=
  Config.params.Legal ∧ (∀ (i : Instr) (s : State), exec i s = execIn Config.params i s) ∧
  (∀ s : State, step s = stepWith Config.params (execIn Config.params) s)

/-- R75, R162, R212: the machine never stops: no fault and no refusal, in any state. -/
def Obligations.StepNeverStops : Prop :=
  ∀ s : State, ∃ t, step s = .next t

/-- The invariant `State.Inv` (R23, R30, R31, R33, R163, R166) holds after reset. -/
def Obligations.ResetMeetsInvariant : Prop :=
  ∀ P : Params, State.reset.Inv P

/-- R23, R30, R31, R33, R163, R166: every step keeps the invariant, from every state that meets it. -/
def Obligations.StepKeepsInvariant : Prop :=
  (∀ s t : State, s.Inv Config.params → step s = .next t → t.Inv Config.params) ∧
  (∀ (P : Params) (s t : State), s.Inv P → stepWith P (execIn P) s = .next t → t.Inv P)

/-- R167: every command completes. From a BUSY state, if no reset arrives in the host turns before completion, the
machine is IDLE with DONE = 1 and the command's result code after finitely many steps. -/
def Obligations.EveryCommandCompletes : Prop :=
  ∀ (s : State) (sn : Snapshot) (left : Nat), s.phase = .busy sn left → (∀ e ∈ s.inbox.take left, e ≠ .rst) →
    ∃ t : State, Host.Core.run Sys2Proof.core (left + 1) s = .next t ∧ t.phase = .idle ∧ t.done = true ∧
      t.err = (execResult Config.params sn).err

/-- R160, R165: a command issued in an IDLE state runs in `exec` from its acceptance to its completion (log 8). -/
def Obligations.IssueInIdleCompletes : Prop :=
  ∀ (i : Instr) (s : State), s.phase = .idle →
    ∃ t, exec i s = .next t ∧ exec i (accept Config.params (encode i) s) = .next t ∧ t.phase = .idle ∧ t.done = true

/-! The commands. A claim is made of this machine's `exec`, and of `execIn P` for every configuration R9 allows. -/

/-- The command `i` in flight in `s` completes with the error code `code`, and without any cipher call. -/
def Rejects (P : Params) (run : Run) (i : Instr) (s : State) (code : Nat) : Prop :=
  ∃ t, run i s = .next t ∧ s.Fails t code ∧
    ∀ sn left, s.phase = .busy sn left → (resultOf P i sn).calls = []

/-- WRAP on legal operands (R109, R102, R106, R107). -/
def WrapSuccess (P : Params) (run : Run) : Prop :=
  ∀ (s : State) (ivSel : Bool), s.Inv P → s.isBusy = true →
    LegalKeyLength s.kekLen.toNat → s.inLen.toNat % 8 = 0 → 16 ≤ s.inLen.toNat → s.inLen.toNat / 8 ≤ P.sbMax →
    ∃ t out, run (.wrap ivSel) s = .next t ∧ s.Commits t out ∧ out.length = s.inLen.toNat + 8 ∧
      out = (wrapTransform P s.key (s.icv ivSel) (semiblocks (s.ibufBytes P s.inLen.toNat))).output

/-- R109: WRAP with a legal key and a legal length answers OUT_LEN = L + 8 and A || R[1] || ... || R[n]. -/
def Obligations.WrapSucceeds : Prop :=
  WrapSuccess Config.params exec ∧ ∀ P : Params, P.Legal → WrapSuccess P (execIn P)

/-- WRAP on bad operands (R108). -/
def WrapRejection (P : Params) (run : Run) : Prop :=
  ∀ (s : State) (ivSel : Bool), s.Inv P → s.isBusy = true →
    (¬ LegalKeyLength s.kekLen.toNat → Rejects P run (.wrap ivSel) s 1) ∧
    (LegalKeyLength s.kekLen.toNat → (s.inLen.toNat % 8 ≠ 0 ∨ s.inLen.toNat < 16) →
      Rejects P run (.wrap ivSel) s 2) ∧
    (LegalKeyLength s.kekLen.toNat → s.inLen.toNat % 8 = 0 → 16 ≤ s.inLen.toNat → P.sbMax < s.inLen.toNat / 8 →
      Rejects P run (.wrap ivSel) s 2)

/-- R108: WRAP's checks in their order, each with its error code and before any cipher call. -/
def Obligations.WrapChecksInOrder : Prop :=
  WrapRejection Config.params exec ∧ ∀ P : Params, P.Legal → WrapRejection P (execIn P)

/-- UNWRAP on legal operands (R112, R111, R103, R107). -/
def UnwrapEnd (P : Params) (run : Run) : Prop :=
  ∀ (s : State) (ivSel : Bool) (w : Work), s.Inv P → s.isBusy = true →
    LegalKeyLength s.kekLen.toNat → s.inLen.toNat % 8 = 0 → 24 ≤ s.inLen.toNat → s.inLen.toNat / 8 - 1 ≤ P.sbMax →
    w = unwrapTransform P s.key (semiblockOf (s.ibufBytes P 8))
      (semiblocks ((s.ibufBytes P s.inLen.toNat).drop 8)) →
    ∃ t, run (.unwrap ivSel) s = .next t ∧
      (w.a = s.icv ivSel → s.Commits t (joinSemiblocks w.r) ∧ (joinSemiblocks w.r).length = s.inLen.toNat - 8) ∧
      (w.a ≠ s.icv ivSel → s.Fails t 4)

/-- R112, R111: UNWRAP succeeds exactly if all 8 bytes of the recovered A equal the command's icv; else it fails with
INTEGRITY_CHECK_FAILED and shows nothing it recovered. -/
def Obligations.UnwrapEndsByIcv : Prop :=
  UnwrapEnd Config.params exec ∧ ∀ P : Params, P.Legal → UnwrapEnd P (execIn P)

/-- UNWRAP on bad operands (R110). -/
def UnwrapRejection (P : Params) (run : Run) : Prop :=
  ∀ (s : State) (ivSel : Bool), s.Inv P → s.isBusy = true →
    (¬ LegalKeyLength s.kekLen.toNat → Rejects P run (.unwrap ivSel) s 1) ∧
    (LegalKeyLength s.kekLen.toNat → (s.inLen.toNat % 8 ≠ 0 ∨ s.inLen.toNat < 24) →
      Rejects P run (.unwrap ivSel) s 3) ∧
    (LegalKeyLength s.kekLen.toNat → s.inLen.toNat % 8 = 0 → 24 ≤ s.inLen.toNat → P.sbMax < s.inLen.toNat / 8 - 1 →
      Rejects P run (.unwrap ivSel) s 3)

/-- R110: UNWRAP's checks in their order, each with its error code and before any cipher call. -/
def Obligations.UnwrapChecksInOrder : Prop :=
  UnwrapRejection Config.params exec ∧ ∀ P : Params, P.Legal → UnwrapRejection P (execIn P)

/-- WRAP_PAD on legal operands (R135, R130, R131, R132, R139). -/
def WrapPadSuccess (P : Params) (run : Run) : Prop :=
  ∀ s : State, s.Inv P → s.isBusy = true → LegalKeyLength s.kekLen.toNat →
    1 ≤ s.inLen.toNat → s.inLen.toNat ≤ 2 ^ 32 - 1 → (s.inLen.toNat + 7) / 8 ≤ P.sbMax →
    ∃ t out, run .wrapPad s = .next t ∧ s.Commits t out ∧ out.length = 8 * ((s.inLen.toNat + 7) / 8) + 8 ∧
      (s.inLen.toNat ≤ 8 → out = blockBytes (P.enc s.key (blockPair (specAiv s.inLen.toNat)
        (semiblockOf (s.ibufBytes P s.inLen.toNat ++ List.replicate (8 - s.inLen.toNat) 0))))) ∧
      (9 ≤ s.inLen.toNat → out = (wrapTransform P s.key (specAiv s.inLen.toNat)
        (semiblocks (s.ibufBytes P s.inLen.toNat ++
          List.replicate ((8 - s.inLen.toNat % 8) % 8) 0))).output)

/-- R135: WRAP_PAD on legal operands: one ENC call for at most 8 bytes, the wrap transform with the AIV above that. -/
def Obligations.WrapPadSucceeds : Prop :=
  WrapPadSuccess Config.params exec ∧ ∀ P : Params, P.Legal → WrapPadSuccess P (execIn P)

/-- WRAP_PAD on bad operands (R134). -/
def WrapPadRejection (P : Params) (run : Run) : Prop :=
  ∀ s : State, s.Inv P → s.isBusy = true →
    (¬ LegalKeyLength s.kekLen.toNat → Rejects P run .wrapPad s 1) ∧
    (LegalKeyLength s.kekLen.toNat → (s.inLen.toNat = 0 ∨ 2 ^ 32 - 1 < s.inLen.toNat) →
      Rejects P run .wrapPad s 2) ∧
    (LegalKeyLength s.kekLen.toNat → 1 ≤ s.inLen.toNat → s.inLen.toNat ≤ 2 ^ 32 - 1 →
      P.sbMax < (s.inLen.toNat + 7) / 8 → Rejects P run .wrapPad s 2)

/-- R134: WRAP_PAD's checks in their order, each with its error code and before any cipher call. -/
def Obligations.WrapPadChecksInOrder : Prop :=
  WrapPadRejection Config.params exec ∧ ∀ P : Params, P.Legal → WrapPadRejection P (execIn P)

/-- UNWRAP_PAD on legal operands (R137, R133, R138). -/
def UnwrapPadEnd (P : Params) (run : Run) : Prop :=
  ∀ (s : State) (aiv : Semiblock) (padded : List Byte), s.Inv P → s.isBusy = true → LegalKeyLength s.kekLen.toNat →
    (s.inLen.toNat = 16 ∧
        aiv = msb64 (P.dec s.key (blockOf (s.ibufBytes P 16))) ∧
        padded = semiblockBytes (lsb64 (P.dec s.key (blockOf (s.ibufBytes P 16)))) ∨
      s.inLen.toNat % 8 = 0 ∧ 24 ≤ s.inLen.toNat ∧ s.inLen.toNat / 8 - 1 ≤ P.sbMax ∧
        aiv = (unwrapTransform P s.key (semiblockOf (s.ibufBytes P 8))
          (semiblocks ((s.ibufBytes P s.inLen.toNat).drop 8))).a ∧
        padded = joinSemiblocks (unwrapTransform P s.key (semiblockOf (s.ibufBytes P 8))
          (semiblocks ((s.ibufBytes P s.inLen.toNat).drop 8))).r) →
    ∃ t, run .unwrapPad s = .next t ∧
      (∀ m, AivPasses aiv padded m → s.Commits t (padded.take m) ∧ (padded.take m).length = m) ∧
      ((∀ m, ¬ AivPasses aiv padded m) → s.Fails t 4)

/-- R137, R138: UNWRAP_PAD ends by AIVCHECK on what one DEC call (16 bytes) or the unwrap transform recovers. -/
def Obligations.UnwrapPadEndsByAivCheck : Prop :=
  UnwrapPadEnd Config.params exec ∧ ∀ P : Params, P.Legal → UnwrapPadEnd P (execIn P)

/-- UNWRAP_PAD on bad operands (R136). -/
def UnwrapPadRejection (P : Params) (run : Run) : Prop :=
  ∀ s : State, s.Inv P → s.isBusy = true →
    (¬ LegalKeyLength s.kekLen.toNat → Rejects P run .unwrapPad s 1) ∧
    (LegalKeyLength s.kekLen.toNat → ¬ (s.inLen.toNat = 16 ∨ (s.inLen.toNat % 8 = 0 ∧ 24 ≤ s.inLen.toNat)) →
      Rejects P run .unwrapPad s 3) ∧
    (LegalKeyLength s.kekLen.toNat → s.inLen.toNat % 8 = 0 → 24 ≤ s.inLen.toNat → P.sbMax < s.inLen.toNat / 8 - 1 →
      Rejects P run .unwrapPad s 3)

/-- R136: UNWRAP_PAD's checks in their order, each with its error code and before any cipher call. -/
def Obligations.UnwrapPadChecksInOrder : Prop :=
  UnwrapPadRejection Config.params exec ∧ ∀ P : Params, P.Legal → UnwrapPadRejection P (execIn P)

/-- An illegal command (R74, R206). -/
def IllegalEnd (P : Params) (run : Run) : Prop :=
  (∀ (s : State) (w : Word), s.Inv P → s.isBusy = true → Rejects P run (.illegal w) s 5) ∧
  (∀ (s : State) (w : Word), legal w = false → s.phase = .idle →
    (serveBus P (.memWrite .reg 0x00 4 w) s).answers = ⟨.ok, none⟩ :: s.answers ∧
    ∃ sn left, (serveBus P (.memWrite .reg 0x00 4 w) s).phase = .busy sn left ∧ decode sn.word = .illegal w)

/-- R74: an illegal word written to CMD while IDLE answers OK and is accepted as the illegal command, which completes with
ILLEGAL_COMMAND, no result and no cipher call, whatever KEK_LEN and IN_LEN hold. -/
def Obligations.IllegalWordCompletes : Prop :=
  IllegalEnd Config.params exec ∧ ∀ P : Params, P.Legal → IllegalEnd P (execIn P)

/-- What any command may write (R165, R166, R212, 10_state.md R30). -/
def CommandFrame (P : Params) (run : Run) : Prop :=
  ∀ (i : Instr) (s t : State) (sn : Snapshot) (left : Nat), s.phase = .busy sn left → run i s = .next t →
    let r := resultOf P i sn
    t = { s with
      phase := .idle, done := true, err := r.err, obuf := t.obuf, outLenLo := t.outLenLo, outLenHi := t.outLenHi } ∧
    (∀ q, t.ibufAt P q = s.ibufAt P q) ∧
    (s.Inv P → t.obufBytes r.out.length = r.out ∧ ∀ q, r.out.length ≤ q → t.obufAt q = s.obufAt q) ∧
    (r.err = .none → t.outLenLo = BitVec.ofNat 32 r.out.length ∧
      (r.out.length < 2 ^ 64 → t.outLen = BitVec.ofNat 64 r.out.length)) ∧
    (r.err ≠ .none → r.out = [] ∧ t.obuf = s.obuf ∧ t.outLenLo = s.outLenLo ∧ t.outLenHi = s.outLenHi)

/-- R165, R166, R212, R30: a command writes STATUS, the phase, OBUF and OUT_LEN and nothing else. Under the invariant
OBUF holds the result's bytes from cell 0 on and every cell from len(out) on reads as before; OUT_LEN = len(out) where 64
bits can hold it (log 10); the engine never writes IBUF; a command that fails has no output and writes neither OBUF nor
OUT_LEN. -/
def Obligations.CommandsWriteOnlyResults : Prop :=
  CommandFrame Config.params exec ∧ ∀ P : Params, P.Legal → CommandFrame P (execIn P)

/-! EXEC as a function of the snapshot, and the cipher calls. -/

/-- R210, R203, R204: which error a command reports: the word first, then the key length, then the data length, each code
exactly in its cases and with no cipher call; and INTEGRITY_CHECK_FAILED only where all of those pass and the command
unwraps. -/
def Obligations.ErrorsInPriorityOrder : Prop :=
  ∀ (P : Params) (sn : Snapshot),
    let n := sn.inlen.toNat
    let err := (execResult P sn).err
    (err = .illegalCommand ↔ legal sn.word = false) ∧
    (err = .invalidKeyLength ↔ legal sn.word = true ∧ ¬ LegalKeyLength sn.klen.toNat) ∧
    (err = .invalidPlaintextLength ↔ legal sn.word = true ∧ LegalKeyLength sn.klen.toNat ∧
      ((opField sn.word = 1 ∧ (n % 8 ≠ 0 ∨ n < 16 ∨ P.sbMax < n / 8)) ∨
       (opField sn.word = 3 ∧ (n = 0 ∨ 2 ^ 32 - 1 < n ∨ P.sbMax < (n + 7) / 8)))) ∧
    (err = .invalidWrappedLength ↔ legal sn.word = true ∧ LegalKeyLength sn.klen.toNat ∧
      ((opField sn.word = 2 ∧ (n % 8 ≠ 0 ∨ n < 24 ∨ P.sbMax < n / 8 - 1)) ∨
       (opField sn.word = 4 ∧ (¬ (n = 16 ∨ (n % 8 = 0 ∧ 24 ≤ n)) ∨ (24 ≤ n ∧ P.sbMax < n / 8 - 1))))) ∧
    (err = .integrityCheckFailed → legal sn.word = true ∧ LegalKeyLength sn.klen.toNat ∧
      ((opField sn.word = 2 ∧ n % 8 = 0 ∧ 24 ≤ n ∧ n / 8 - 1 ≤ P.sbMax) ∨
       (opField sn.word = 4 ∧ (n = 16 ∨ (n % 8 = 0 ∧ 24 ≤ n ∧ n / 8 - 1 ≤ P.sbMax))))) ∧
    (err ≠ .none → err ≠ .integrityCheckFailed → (execResult P sn).calls = [])

/-- R211, R100: a command that raises code 1, 2, 3 or 5 makes no cipher call, and no call is ever made with a key of
another length than 16, 24 or 32 bytes, or with another key than KEKBYTES[0 : LEN]. -/
def Obligations.EagerValidation : Prop :=
  ∀ (P : Params) (sn : Snapshot), sn.kek.length = 32 →
    ((execResult P sn).err ≠ .none → (execResult P sn).err ≠ .integrityCheckFailed → (execResult P sn).calls = []) ∧
    (∀ c ∈ (execResult P sn).calls, c.key = sn.kek.take sn.klen.toNat ∧ LegalKeyLength c.key.length)

/-- R114, R141: the number and direction of the cipher calls of a command that passes its checks, under a snapshot that
holds IBUF[0 : min(IN_LEN, BUF_BYTES)]; a command that fails them makes none. -/
def Obligations.CipherCallCounts : Prop :=
  ∀ (P : Params) (sn : Snapshot),
    let n := sn.inlen.toNat
    let r := execResult P sn
    P.Legal → sn.data.length = min n P.bufBytes →
    (r.err ≠ .none → r.err ≠ .integrityCheckFailed → r.calls = []) ∧
    (r.err = .none ∨ r.err = .integrityCheckFailed →
      (opField sn.word = 1 → r.calls.length = 6 * (n / 8)) ∧
      (opField sn.word = 2 → r.calls.length = 6 * (n / 8 - 1)) ∧
      (opField sn.word = 3 → n ≤ 8 → r.calls.length = 1) ∧
      (opField sn.word = 3 → 9 ≤ n → r.calls.length = 6 * ((n + 7) / 8)) ∧
      (opField sn.word = 4 → n = 16 → r.calls.length = 1) ∧
      (opField sn.word = 4 → 24 ≤ n → r.calls.length = 6 * (n / 8 - 1)) ∧
      (∀ c ∈ r.calls, c.dir = if opField sn.word = 1 ∨ opField sn.word = 3 then .enc else .dec))

/-- R168, R161: what a command shows depends on its snapshot alone: two BUSY states that hold equal snapshots and show
no result show the same STATUS, OBUF and OUT_LEN after it, whatever else they hold. -/
def Obligations.EqualSnapshotsEqualResults : Prop :=
  ∀ (P : Params) (s s' t t' : State) (sn : Snapshot),
    s.phase = .busy sn 0 → s'.phase = .busy sn 0 → s.NoResult → s'.NoResult →
    (execResult P sn).out.length < 2 ^ 64 →
    stepWith P (execIn P) s = .next t → stepWith P (execIn P) s' = .next t' →
    t.statusWord = t'.statusWord ∧ t.obuf = t'.obuf ∧ t.outLen = t'.outLen

/-- R135, R161: bytes of IBUF at IN_LEN and above reach no command: two IDLE states that agree on the registers and on
IBUF[0 : IN_LEN] put the same snapshot in flight. -/
def Obligations.BytesBeyondInputUnused : Prop :=
  ∀ (P : Params) (w : Word) (s s' : State), s.phase = .idle → s'.phase = .idle →
    s'.kekLen = s.kekLen → s'.kek = s.kek → s'.iv = s.iv → s'.inLen = s.inLen →
    (∀ q, q < s.inLen.toNat → s'.ibufAt P q = s.ibufAt P q) →
    ∃ sn left left', (serveBus P (.memWrite .reg 0x00 4 w) s).phase = .busy sn left ∧
      (serveBus P (.memWrite .reg 0x00 4 w) s').phase = .busy sn left'

/-- R25: the IV register has no effect on WRAP_PAD and UNWRAP_PAD, nor on WRAP and UNWRAP with IV_SEL = 0. -/
def Obligations.IvRegisterUnusedWithoutIvSel : Prop :=
  ∀ (P : Params) (sn : Snapshot) (v : Semiblock), ivSelField sn.word = false →
    execResult P { sn with iv := v } = execResult P sn

/-! The transforms. -/

/-- R102, R103, R105: the loops run exactly 6n times; call number t of W uses counter t, and U's counters run
6n, 6n-1, ..., 1; in both loops j <= 5 and 1 <= i <= n throughout. -/
def Obligations.RoundCountersInOrder : Prop :=
  ∀ n : Nat, (wrapOrder n).map (fun ji => n * ji.1 + ji.2) = List.range' 1 (6 * n) ∧
    (unwrapOrder n).map (fun ji => n * ji.1 + ji.2) = (List.range' 1 (6 * n)).reverse ∧
    (∀ ji ∈ wrapOrder n, ji.1 ≤ 5 ∧ 1 ≤ ji.2 ∧ ji.2 ≤ n) ∧
    (∀ ji ∈ unwrapOrder n, ji.1 ≤ 5 ∧ 1 ≤ ji.2 ∧ ji.2 ≤ n)

/-- R104: U inverts W, for every legal key, every A0 and every semiblock list, under the cipher law. -/
def Obligations.UnwrapInvertsWrap : Prop :=
  ∀ (P : Params) (k : List Byte) (a0 : Semiblock) (p : List Semiblock), P.CipherLaw → LegalKeyLength k.length →
    let w := wrapTransform P k a0 p
    w.r.length = p.length ∧ (unwrapTransform P k w.a w.r).a = a0 ∧ (unwrapTransform P k w.a w.r).r = p

/-- W inverts U as well (from R101 and the loop orders of R102 and R103): what U recovers, W wraps back. -/
def Obligations.WrapInvertsUnwrap : Prop :=
  ∀ (P : Params) (k : List Byte) (c0 : Semiblock) (c : List Semiblock), P.CipherLaw → LegalKeyLength k.length →
    let u := unwrapTransform P k c0 c
    u.r.length = c.length ∧ (wrapTransform P k u.a u.r).a = c0 ∧ (wrapTransform P k u.a u.r).r = c

/-- 95_test_vectors.md section 2.3: under the identity cipher W leaves every semiblock alone and XORs every counter
1..6n into A. -/
def Obligations.IdentityCipherShowsCounters : Prop :=
  ∀ (P : Params) (k : List Byte) (a0 : Semiblock) (p : List Semiblock), (∀ x, P.enc k x = x) →
    (wrapTransform P k a0 p).r = p ∧
    (wrapTransform P k a0 p).a =
      (List.range' 1 (6 * p.length)).foldl (fun a t => a ^^^ BitVec.ofNat 64 t) a0

/-- R138: AIVCHECK passes exactly if all its tests do, and then 8*(n-1) < MLI <= 8n. -/
def Obligations.AivCheckExact : Prop :=
  ∀ (aiv : Semiblock) (padded : List Byte) (m : Nat),
    (aivCheck aiv padded = some m ↔ AivPasses aiv padded m) ∧
    (∀ n, padded.length = 8 * n → aivCheck aiv padded = some m → 8 * (n - 1) < m ∧ m ≤ 8 * n)

/-- R130, R131: the AIV and the padding of key material of m bytes, 1 <= m <= 2^32 - 1. -/
def Obligations.PaddingAndAivAsSpecified : Prop :=
  ∀ p : List Byte, 1 ≤ p.length → p.length ≤ 2 ^ 32 - 1 →
    pad p = p ++ List.replicate ((8 - p.length % 8) % 8) 0 ∧
    (pad p).length % 8 = 0 ∧ p.length ≤ (pad p).length ∧ (pad p).length < p.length + 8 ∧
    (pad p).length / 8 = (p.length + 7) / 8 ∧
    semiblockBytes (aivOf p.length) = [0xA6, 0x59, 0x59, 0xA6] ++ beBytes 4 p.length ∧
    uintBe (beBytes 4 p.length) = p.length ∧
    (aivOf p.length).extractLsb' 32 32 = 0xA65959A6 ∧ ((aivOf p.length).extractLsb' 0 32).toNat = p.length

/-- R113: under the cipher law, UNWRAP of a WRAP's output under the same key and icv succeeds and returns the
plaintext. -/
def Obligations.PlainRoundTrip : Prop :=
  ∀ (P : Params) (s t u : State) (ivSel : Bool), P.CipherLaw →
    s.Inv P → s.isBusy = true → LegalKeyLength s.kekLen.toNat →
    16 ≤ s.inLen.toNat → s.inLen.toNat ≤ 8 * P.sbMax → s.inLen.toNat % 8 = 0 →
    execIn P (.wrap ivSel) s = .next t →
    u.Inv P → u.isBusy = true → u.kekLen = s.kekLen → u.kek = s.kek → u.iv = s.iv →
    u.inLen.toNat = s.inLen.toNat + 8 →
    u.ibufBytes P (s.inLen.toNat + 8) = t.obufBytes (s.inLen.toNat + 8) →
    ∃ v, execIn P (.unwrap ivSel) u = .next v ∧ v.statusWord = 0x00000002 ∧ v.outLen = s.inLen ∧
      v.obufBytes s.inLen.toNat = s.ibufBytes P s.inLen.toNat

/-- R140: under the cipher law, UNWRAP_PAD of a WRAP_PAD's output under the same key succeeds and returns exactly the
key material, on the shortcut path and on the multi-round path. -/
def Obligations.PaddedRoundTrip : Prop :=
  ∀ (P : Params) (s t u : State), P.CipherLaw →
    s.Inv P → s.isBusy = true → LegalKeyLength s.kekLen.toNat →
    1 ≤ s.inLen.toNat → s.inLen.toNat ≤ 2 ^ 32 - 1 → s.inLen.toNat ≤ 8 * P.sbMax →
    execIn P .wrapPad s = .next t →
    u.Inv P → u.isBusy = true → u.kekLen = s.kekLen → u.kek = s.kek →
    u.inLen = t.outLen → u.ibufBytes P u.inLen.toNat = t.obufBytes u.inLen.toNat →
    ∃ v, execIn P .unwrapPad u = .next v ∧ v.statusWord = 0x00000002 ∧ v.outLen = s.inLen ∧
      v.obufBytes s.inLen.toNat = s.ibufBytes P s.inLen.toNat

/-- R142: under the cipher law, UNWRAP with IV_SEL = 0 rejects every WRAP_PAD output (a 16-byte one for its length, a
longer one by the ICV), UNWRAP with IV = the AIV accepts a longer one and returns the padded bytes, and UNWRAP_PAD
rejects every output of WRAP with IV_SEL = 0. -/
def Obligations.PlainAndPaddedDisjoint : Prop :=
  ∀ (P : Params) (sn un : Snapshot), P.CipherLaw → LegalKeyLength sn.key.length → sn.data.length = sn.inlen.toNat →
    un.klen = sn.klen → un.kek = sn.kek → un.inlen.toNat = un.data.length →
    ((wrapPadResult P sn).err = .none → un.data = (wrapPadResult P sn).out →
      (unwrapResult P false un).err =
        (if sn.inlen.toNat ≤ 8 then .invalidWrappedLength else .integrityCheckFailed) ∧
      (9 ≤ sn.inlen.toNat → un.iv = specAiv sn.inlen.toNat →
        (unwrapResult P true un).err = .none ∧
        (unwrapResult P true un).out = sn.data ++ List.replicate ((8 - sn.inlen.toNat % 8) % 8) 0)) ∧
    ((wrapResult P false sn).err = .none → un.data = (wrapResult P false sn).out →
      (unwrapPadResult P un).err = .integrityCheckFailed)

/-- R102, R103, R56: one step of each loop under an arbitrary cipher, on bytes, and the transforms as those steps in the
loops' order. W: B = ENC(k, A || R[i]), then A = B[0:8] XOR be64(t) and R[i] = B[8:16]. U: B = DEC(k, (A XOR be64(t)) ||
R[i]), then A = B[0:8] and R[i] = B[8:16]. Every other semiblock stays, and one cipher call is made. -/
def Obligations.LoopStepsAsSpecified : Prop :=
  (∀ (P : Params) (k : List Byte) (n j i : Nat) (w : Work) (r : Semiblock), 1 ≤ i → w.r[i - 1]? = some r →
    let x := blockOf (semiblockBytes w.a ++ semiblockBytes r)
    let b := blockBytes (P.enc k x)
    wrapBody P k n j i w =
      { a := semiblockOf (b.take 8) ^^^ BitVec.ofNat 64 (n * j + i)
        r := w.r.set (i - 1) (semiblockOf (b.drop 8))
        calls := w.calls ++ [⟨.enc, k, x⟩] }) ∧
  (∀ (P : Params) (k : List Byte) (n j i : Nat) (w : Work) (r : Semiblock), 1 ≤ i → w.r[i - 1]? = some r →
    let x := blockOf (semiblockBytes (w.a ^^^ BitVec.ofNat 64 (n * j + i)) ++ semiblockBytes r)
    let b := blockBytes (P.dec k x)
    unwrapBody P k n j i w =
      { a := semiblockOf (b.take 8)
        r := w.r.set (i - 1) (semiblockOf (b.drop 8))
        calls := w.calls ++ [⟨.dec, k, x⟩] }) ∧
  (∀ t, t < 2 ^ 64 → semiblockBytes (BitVec.ofNat 64 t) = beBytes 8 t) ∧
  (∀ (P : Params) (k : List Byte) (a0 : Semiblock) (p : List Semiblock),
    wrapTransform P k a0 p =
      (wrapOrder p.length).foldl (fun w ji => wrapBody P k p.length ji.1 ji.2 w) ⟨a0, p, []⟩ ∧
    unwrapTransform P k a0 p =
      (unwrapOrder p.length).foldl (fun w ji => unwrapBody P k p.length ji.1 ji.2 w) ⟨a0, p, []⟩)
end

