-- ==== Sys2Proof/Laws/State.lean ====
section
/-! SUPPORT. One lemma per field per named update of State, so that no proof unfolds a record update. -/

namespace Sys2Proof.Machine

variable (s : State)

/-! The fields after `State.clearStatus`. -/

@[simp] theorem State.clearStatus_phase : s.clearStatus.phase = s.phase := rfl
@[simp] theorem State.clearStatus_done : s.clearStatus.done = false := rfl
@[simp] theorem State.clearStatus_err : s.clearStatus.err = ErrCode.none := rfl
@[simp] theorem State.clearStatus_kekLen : s.clearStatus.kekLen = s.kekLen := rfl
@[simp] theorem State.clearStatus_kek : s.clearStatus.kek = s.kek := rfl
@[simp] theorem State.clearStatus_ivHi : s.clearStatus.ivHi = s.ivHi := rfl
@[simp] theorem State.clearStatus_ivLo : s.clearStatus.ivLo = s.ivLo := rfl
@[simp] theorem State.clearStatus_inLenLo : s.clearStatus.inLenLo = s.inLenLo := rfl
@[simp] theorem State.clearStatus_inLenHi : s.clearStatus.inLenHi = s.inLenHi := rfl
@[simp] theorem State.clearStatus_outLenLo : s.clearStatus.outLenLo = s.outLenLo := rfl
@[simp] theorem State.clearStatus_outLenHi : s.clearStatus.outLenHi = s.outLenHi := rfl
@[simp] theorem State.clearStatus_ibuf : s.clearStatus.ibuf = s.ibuf := rfl
@[simp] theorem State.clearStatus_obuf : s.clearStatus.obuf = s.obuf := rfl
@[simp] theorem State.clearStatus_inbox : s.clearStatus.inbox = s.inbox := rfl
@[simp] theorem State.clearStatus_answers : s.clearStatus.answers = s.answers := rfl
@[simp] theorem State.clearStatus_hostFault : s.clearStatus.hostFault = s.hostFault := rfl
@[simp] theorem State.clearStatus_accepted : s.clearStatus.accepted = s.accepted := rfl
@[simp] theorem State.clearStatus_resets : s.clearStatus.resets = s.resets := rfl

/-! The fields after `State.setStatus`. -/

@[simp] theorem State.setStatus_phase (e : ErrCode) : (s.setStatus e).phase = s.phase := rfl
@[simp] theorem State.setStatus_done (e : ErrCode) : (s.setStatus e).done = true := rfl
@[simp] theorem State.setStatus_err (e : ErrCode) : (s.setStatus e).err = e := rfl
@[simp] theorem State.setStatus_kekLen (e : ErrCode) : (s.setStatus e).kekLen = s.kekLen := rfl
@[simp] theorem State.setStatus_kek (e : ErrCode) : (s.setStatus e).kek = s.kek := rfl
@[simp] theorem State.setStatus_ivHi (e : ErrCode) : (s.setStatus e).ivHi = s.ivHi := rfl
@[simp] theorem State.setStatus_ivLo (e : ErrCode) : (s.setStatus e).ivLo = s.ivLo := rfl
@[simp] theorem State.setStatus_inLenLo (e : ErrCode) : (s.setStatus e).inLenLo = s.inLenLo := rfl
@[simp] theorem State.setStatus_inLenHi (e : ErrCode) : (s.setStatus e).inLenHi = s.inLenHi := rfl
@[simp] theorem State.setStatus_outLenLo (e : ErrCode) : (s.setStatus e).outLenLo = s.outLenLo := rfl
@[simp] theorem State.setStatus_outLenHi (e : ErrCode) : (s.setStatus e).outLenHi = s.outLenHi := rfl
@[simp] theorem State.setStatus_ibuf (e : ErrCode) : (s.setStatus e).ibuf = s.ibuf := rfl
@[simp] theorem State.setStatus_obuf (e : ErrCode) : (s.setStatus e).obuf = s.obuf := rfl
@[simp] theorem State.setStatus_inbox (e : ErrCode) : (s.setStatus e).inbox = s.inbox := rfl
@[simp] theorem State.setStatus_answers (e : ErrCode) : (s.setStatus e).answers = s.answers := rfl
@[simp] theorem State.setStatus_hostFault (e : ErrCode) : (s.setStatus e).hostFault = s.hostFault := rfl
@[simp] theorem State.setStatus_accepted (e : ErrCode) : (s.setStatus e).accepted = s.accepted := rfl
@[simp] theorem State.setStatus_resets (e : ErrCode) : (s.setStatus e).resets = s.resets := rfl

/-! The fields after `State.answer`. -/

@[simp] theorem State.answer_phase (r : BusResponse) (d : Option Word) : (s.answer r d).phase = s.phase := rfl
@[simp] theorem State.answer_done (r : BusResponse) (d : Option Word) : (s.answer r d).done = s.done := rfl
@[simp] theorem State.answer_err (r : BusResponse) (d : Option Word) : (s.answer r d).err = s.err := rfl
@[simp] theorem State.answer_kekLen (r : BusResponse) (d : Option Word) : (s.answer r d).kekLen = s.kekLen := rfl
@[simp] theorem State.answer_kek (r : BusResponse) (d : Option Word) : (s.answer r d).kek = s.kek := rfl
@[simp] theorem State.answer_ivHi (r : BusResponse) (d : Option Word) : (s.answer r d).ivHi = s.ivHi := rfl
@[simp] theorem State.answer_ivLo (r : BusResponse) (d : Option Word) : (s.answer r d).ivLo = s.ivLo := rfl
@[simp] theorem State.answer_inLenLo (r : BusResponse) (d : Option Word) : (s.answer r d).inLenLo = s.inLenLo := rfl
@[simp] theorem State.answer_inLenHi (r : BusResponse) (d : Option Word) : (s.answer r d).inLenHi = s.inLenHi := rfl
@[simp] theorem State.answer_outLenLo (r : BusResponse) (d : Option Word) : (s.answer r d).outLenLo = s.outLenLo := rfl
@[simp] theorem State.answer_outLenHi (r : BusResponse) (d : Option Word) : (s.answer r d).outLenHi = s.outLenHi := rfl
@[simp] theorem State.answer_ibuf (r : BusResponse) (d : Option Word) : (s.answer r d).ibuf = s.ibuf := rfl
@[simp] theorem State.answer_obuf (r : BusResponse) (d : Option Word) : (s.answer r d).obuf = s.obuf := rfl
@[simp] theorem State.answer_inbox (r : BusResponse) (d : Option Word) : (s.answer r d).inbox = s.inbox := rfl
@[simp] theorem State.answer_answers (r : BusResponse) (d : Option Word) : (s.answer r d).answers = ⟨r, d⟩ :: s.answers := rfl
@[simp] theorem State.answer_hostFault (r : BusResponse) (d : Option Word) : (s.answer r d).hostFault = s.hostFault := rfl
@[simp] theorem State.answer_accepted (r : BusResponse) (d : Option Word) : (s.answer r d).accepted = s.accepted := rfl
@[simp] theorem State.answer_resets (r : BusResponse) (d : Option Word) : (s.answer r d).resets = s.resets := rfl

/-! The fields after `State.flag`. -/

@[simp] theorem State.flag_phase (f : HostFault) : (s.flag f).phase = s.phase := rfl
@[simp] theorem State.flag_done (f : HostFault) : (s.flag f).done = s.done := rfl
@[simp] theorem State.flag_err (f : HostFault) : (s.flag f).err = s.err := rfl
@[simp] theorem State.flag_kekLen (f : HostFault) : (s.flag f).kekLen = s.kekLen := rfl
@[simp] theorem State.flag_kek (f : HostFault) : (s.flag f).kek = s.kek := rfl
@[simp] theorem State.flag_ivHi (f : HostFault) : (s.flag f).ivHi = s.ivHi := rfl
@[simp] theorem State.flag_ivLo (f : HostFault) : (s.flag f).ivLo = s.ivLo := rfl
@[simp] theorem State.flag_inLenLo (f : HostFault) : (s.flag f).inLenLo = s.inLenLo := rfl
@[simp] theorem State.flag_inLenHi (f : HostFault) : (s.flag f).inLenHi = s.inLenHi := rfl
@[simp] theorem State.flag_outLenLo (f : HostFault) : (s.flag f).outLenLo = s.outLenLo := rfl
@[simp] theorem State.flag_outLenHi (f : HostFault) : (s.flag f).outLenHi = s.outLenHi := rfl
@[simp] theorem State.flag_ibuf (f : HostFault) : (s.flag f).ibuf = s.ibuf := rfl
@[simp] theorem State.flag_obuf (f : HostFault) : (s.flag f).obuf = s.obuf := rfl
@[simp] theorem State.flag_inbox (f : HostFault) : (s.flag f).inbox = s.inbox := rfl
@[simp] theorem State.flag_answers (f : HostFault) : (s.flag f).answers = s.answers := rfl
@[simp] theorem State.flag_hostFault (f : HostFault) : (s.flag f).hostFault = some (s.hostFault.getD f) := rfl
@[simp] theorem State.flag_accepted (f : HostFault) : (s.flag f).accepted = s.accepted := rfl
@[simp] theorem State.flag_resets (f : HostFault) : (s.flag f).resets = s.resets := rfl

/-! The fields after `acceptIn`. -/

@[simp] theorem acceptIn_phase (P : Params) (w : Word) (n : Nat) : (acceptIn P w n s).phase = .busy (capture P w s) n := rfl
@[simp] theorem acceptIn_done (P : Params) (w : Word) (n : Nat) : (acceptIn P w n s).done = false := rfl
@[simp] theorem acceptIn_err (P : Params) (w : Word) (n : Nat) : (acceptIn P w n s).err = ErrCode.none := rfl
@[simp] theorem acceptIn_kekLen (P : Params) (w : Word) (n : Nat) : (acceptIn P w n s).kekLen = s.kekLen := rfl
@[simp] theorem acceptIn_kek (P : Params) (w : Word) (n : Nat) : (acceptIn P w n s).kek = s.kek := rfl
@[simp] theorem acceptIn_ivHi (P : Params) (w : Word) (n : Nat) : (acceptIn P w n s).ivHi = s.ivHi := rfl
@[simp] theorem acceptIn_ivLo (P : Params) (w : Word) (n : Nat) : (acceptIn P w n s).ivLo = s.ivLo := rfl
@[simp] theorem acceptIn_inLenLo (P : Params) (w : Word) (n : Nat) : (acceptIn P w n s).inLenLo = s.inLenLo := rfl
@[simp] theorem acceptIn_inLenHi (P : Params) (w : Word) (n : Nat) : (acceptIn P w n s).inLenHi = s.inLenHi := rfl
@[simp] theorem acceptIn_outLenLo (P : Params) (w : Word) (n : Nat) : (acceptIn P w n s).outLenLo = 0 := rfl
@[simp] theorem acceptIn_outLenHi (P : Params) (w : Word) (n : Nat) : (acceptIn P w n s).outLenHi = 0 := rfl
@[simp] theorem acceptIn_ibuf (P : Params) (w : Word) (n : Nat) : (acceptIn P w n s).ibuf = s.ibuf := rfl
@[simp] theorem acceptIn_obuf (P : Params) (w : Word) (n : Nat) : (acceptIn P w n s).obuf = [] := rfl
@[simp] theorem acceptIn_inbox (P : Params) (w : Word) (n : Nat) : (acceptIn P w n s).inbox = s.inbox := rfl
@[simp] theorem acceptIn_answers (P : Params) (w : Word) (n : Nat) : (acceptIn P w n s).answers = s.answers := rfl
@[simp] theorem acceptIn_hostFault (P : Params) (w : Word) (n : Nat) : (acceptIn P w n s).hostFault = s.hostFault := rfl
@[simp] theorem acceptIn_accepted (P : Params) (w : Word) (n : Nat) : (acceptIn P w n s).accepted = s.accepted := rfl
@[simp] theorem acceptIn_resets (P : Params) (w : Word) (n : Nat) : (acceptIn P w n s).resets = s.resets := rfl

/-! The fields after `accept`. -/

@[simp] theorem accept_phase (P : Params) (w : Word) : (accept P w s).phase = .busy (capture P w s) (P.latency s.accepted) := rfl
@[simp] theorem accept_done (P : Params) (w : Word) : (accept P w s).done = false := rfl
@[simp] theorem accept_err (P : Params) (w : Word) : (accept P w s).err = ErrCode.none := rfl
@[simp] theorem accept_kekLen (P : Params) (w : Word) : (accept P w s).kekLen = s.kekLen := rfl
@[simp] theorem accept_kek (P : Params) (w : Word) : (accept P w s).kek = s.kek := rfl
@[simp] theorem accept_ivHi (P : Params) (w : Word) : (accept P w s).ivHi = s.ivHi := rfl
@[simp] theorem accept_ivLo (P : Params) (w : Word) : (accept P w s).ivLo = s.ivLo := rfl
@[simp] theorem accept_inLenLo (P : Params) (w : Word) : (accept P w s).inLenLo = s.inLenLo := rfl
@[simp] theorem accept_inLenHi (P : Params) (w : Word) : (accept P w s).inLenHi = s.inLenHi := rfl
@[simp] theorem accept_outLenLo (P : Params) (w : Word) : (accept P w s).outLenLo = 0 := rfl
@[simp] theorem accept_outLenHi (P : Params) (w : Word) : (accept P w s).outLenHi = 0 := rfl
@[simp] theorem accept_ibuf (P : Params) (w : Word) : (accept P w s).ibuf = s.ibuf := rfl
@[simp] theorem accept_obuf (P : Params) (w : Word) : (accept P w s).obuf = [] := rfl
@[simp] theorem accept_inbox (P : Params) (w : Word) : (accept P w s).inbox = s.inbox := rfl
@[simp] theorem accept_answers (P : Params) (w : Word) : (accept P w s).answers = s.answers := rfl
@[simp] theorem accept_hostFault (P : Params) (w : Word) : (accept P w s).hostFault = s.hostFault := rfl
@[simp] theorem accept_accepted (P : Params) (w : Word) : (accept P w s).accepted = s.accepted + 1 := rfl
@[simp] theorem accept_resets (P : Params) (w : Word) : (accept P w s).resets = s.resets := rfl

/-! The fields after `commitSuccess`. -/

@[simp] theorem commitSuccess_phase (P : Params) (o : List Byte) : (commitSuccess P o s).phase = s.phase := rfl
@[simp] theorem commitSuccess_done (P : Params) (o : List Byte) : (commitSuccess P o s).done = s.done := rfl
@[simp] theorem commitSuccess_err (P : Params) (o : List Byte) : (commitSuccess P o s).err = s.err := rfl
@[simp] theorem commitSuccess_kekLen (P : Params) (o : List Byte) : (commitSuccess P o s).kekLen = s.kekLen := rfl
@[simp] theorem commitSuccess_kek (P : Params) (o : List Byte) : (commitSuccess P o s).kek = s.kek := rfl
@[simp] theorem commitSuccess_ivHi (P : Params) (o : List Byte) : (commitSuccess P o s).ivHi = s.ivHi := rfl
@[simp] theorem commitSuccess_ivLo (P : Params) (o : List Byte) : (commitSuccess P o s).ivLo = s.ivLo := rfl
@[simp] theorem commitSuccess_inLenLo (P : Params) (o : List Byte) : (commitSuccess P o s).inLenLo = s.inLenLo := rfl
@[simp] theorem commitSuccess_inLenHi (P : Params) (o : List Byte) : (commitSuccess P o s).inLenHi = s.inLenHi := rfl
@[simp] theorem commitSuccess_outLenLo (P : Params) (o : List Byte) : (commitSuccess P o s).outLenLo = BitVec.ofNat 32 o.length := rfl
@[simp] theorem commitSuccess_outLenHi (P : Params) (o : List Byte) : (commitSuccess P o s).outLenHi = outLenHiOf P o.length s.accepted := rfl
@[simp] theorem commitSuccess_ibuf (P : Params) (o : List Byte) : (commitSuccess P o s).ibuf = s.ibuf := rfl
@[simp] theorem commitSuccess_obuf (P : Params) (o : List Byte) : (commitSuccess P o s).obuf = Memory.writeBytes Space.obuf.blank s.obuf 0 o := rfl
@[simp] theorem commitSuccess_inbox (P : Params) (o : List Byte) : (commitSuccess P o s).inbox = s.inbox := rfl
@[simp] theorem commitSuccess_answers (P : Params) (o : List Byte) : (commitSuccess P o s).answers = s.answers := rfl
@[simp] theorem commitSuccess_hostFault (P : Params) (o : List Byte) : (commitSuccess P o s).hostFault = s.hostFault := rfl
@[simp] theorem commitSuccess_accepted (P : Params) (o : List Byte) : (commitSuccess P o s).accepted = s.accepted := rfl
@[simp] theorem commitSuccess_resets (P : Params) (o : List Byte) : (commitSuccess P o s).resets = s.resets := rfl

/-! The fields after `reportError`. -/

@[simp] theorem reportError_phase (e : ErrCode) : (reportError e s).phase = Phase.idle := rfl
@[simp] theorem reportError_done (e : ErrCode) : (reportError e s).done = true := rfl
@[simp] theorem reportError_err (e : ErrCode) : (reportError e s).err = e := rfl
@[simp] theorem reportError_kekLen (e : ErrCode) : (reportError e s).kekLen = s.kekLen := rfl
@[simp] theorem reportError_kek (e : ErrCode) : (reportError e s).kek = s.kek := rfl
@[simp] theorem reportError_ivHi (e : ErrCode) : (reportError e s).ivHi = s.ivHi := rfl
@[simp] theorem reportError_ivLo (e : ErrCode) : (reportError e s).ivLo = s.ivLo := rfl
@[simp] theorem reportError_inLenLo (e : ErrCode) : (reportError e s).inLenLo = s.inLenLo := rfl
@[simp] theorem reportError_inLenHi (e : ErrCode) : (reportError e s).inLenHi = s.inLenHi := rfl
@[simp] theorem reportError_outLenLo (e : ErrCode) : (reportError e s).outLenLo = s.outLenLo := rfl
@[simp] theorem reportError_outLenHi (e : ErrCode) : (reportError e s).outLenHi = s.outLenHi := rfl
@[simp] theorem reportError_ibuf (e : ErrCode) : (reportError e s).ibuf = s.ibuf := rfl
@[simp] theorem reportError_obuf (e : ErrCode) : (reportError e s).obuf = s.obuf := rfl
@[simp] theorem reportError_inbox (e : ErrCode) : (reportError e s).inbox = s.inbox := rfl
@[simp] theorem reportError_answers (e : ErrCode) : (reportError e s).answers = s.answers := rfl
@[simp] theorem reportError_hostFault (e : ErrCode) : (reportError e s).hostFault = s.hostFault := rfl
@[simp] theorem reportError_accepted (e : ErrCode) : (reportError e s).accepted = s.accepted := rfl
@[simp] theorem reportError_resets (e : ErrCode) : (reportError e s).resets = s.resets := rfl

/-! The fields after `resetEngine`. -/

@[simp] theorem resetEngine_phase : (resetEngine s).phase = Phase.idle := rfl
@[simp] theorem resetEngine_done : (resetEngine s).done = false := rfl
@[simp] theorem resetEngine_err : (resetEngine s).err = ErrCode.none := rfl
@[simp] theorem resetEngine_kekLen : (resetEngine s).kekLen = 0 := rfl
@[simp] theorem resetEngine_kek : (resetEngine s).kek = Vector.replicate 8 0 := rfl
@[simp] theorem resetEngine_ivHi : (resetEngine s).ivHi = 0 := rfl
@[simp] theorem resetEngine_ivLo : (resetEngine s).ivLo = 0 := rfl
@[simp] theorem resetEngine_inLenLo : (resetEngine s).inLenLo = 0 := rfl
@[simp] theorem resetEngine_inLenHi : (resetEngine s).inLenHi = 0 := rfl
@[simp] theorem resetEngine_outLenLo : (resetEngine s).outLenLo = 0 := rfl
@[simp] theorem resetEngine_outLenHi : (resetEngine s).outLenHi = 0 := rfl
@[simp] theorem resetEngine_ibuf : (resetEngine s).ibuf = [] := rfl
@[simp] theorem resetEngine_obuf : (resetEngine s).obuf = [] := rfl
@[simp] theorem resetEngine_inbox : (resetEngine s).inbox = s.inbox := rfl
@[simp] theorem resetEngine_answers : (resetEngine s).answers = s.answers := rfl
@[simp] theorem resetEngine_hostFault : (resetEngine s).hostFault = s.hostFault := rfl
@[simp] theorem resetEngine_accepted : (resetEngine s).accepted = s.accepted := rfl
@[simp] theorem resetEngine_resets : (resetEngine s).resets = s.resets + 1 := rfl

end Sys2Proof.Machine
end

