-- ==== Sys2Proof/Laws/Bus.lean ====
section
/-! SUPPORT. One spec lemma per bus operation (20_memory.md R52 to R55): the cases of a transaction. -/

namespace Sys2Proof.Machine

variable {P : Params} {s : State} {sp : Space} {off width : Nat} {v : Word}

/-- Which REG accesses answer OK (R52). -/
theorem accessOk_reg_iff : accessOk P .reg off width = true ↔ off % 4 = 0 ∧ off ≤ 0x7C ∧ width = 4 := by
  simp [accessOk, and_assoc]

/-- Which buffer accesses answer OK (R52). -/
theorem accessOk_buffer_iff (h : sp ≠ .reg) : accessOk P sp off width = true ↔ off < P.bufBytes ∧ width = 1 := by
  cases sp <;> simp_all [accessOk]

/-- A read: its data, or BUS_ERR with data 0 and the host flagged. -/
theorem serveBus_read (P : Params) (sp : Space) (off width : Nat) (s : State) :
    (accessOk P sp off width = true ∧ serveBus P (.memRead sp off width) s =
      { s with answers := ⟨.ok, some (busRead P sp off s)⟩ :: s.answers }) ∨
    (accessOk P sp off width = false ∧ serveBus P (.memRead sp off width) s =
      { s with answers := ⟨.busErr, some 0⟩ :: s.answers, hostFault := some (s.hostFault.getD .busError) }) := by
  cases h : accessOk P sp off width
  · exact .inr ⟨rfl, by simp [serveBus, h, State.flag, State.answer]⟩
  · exact .inl ⟨rfl, by simp [serveBus, h, State.answer]⟩

/-- A write: BUS_ERR, or lost while BUSY, or performed while IDLE. -/
theorem serveBus_write (P : Params) (sp : Space) (off width : Nat) (v : Word) (s : State) :
    (accessOk P sp off width = false ∧ serveBus P (.memWrite sp off width v) s =
      { s with answers := ⟨.busErr, none⟩ :: s.answers, hostFault := some (s.hostFault.getD .busError) }) ∨
    (accessOk P sp off width = true ∧ s.isBusy = true ∧ serveBus P (.memWrite sp off width v) s =
      { s with answers := ⟨.ok, none⟩ :: s.answers, hostFault := some (s.hostFault.getD .writeWhileBusy) }) ∨
    (accessOk P sp off width = true ∧ s.isBusy = false ∧ serveBus P (.memWrite sp off width v) s =
      { busWrite P sp off v s with answers := ⟨.ok, none⟩ :: (busWrite P sp off v s).answers }) := by
  cases h : accessOk P sp off width
  · exact .inl ⟨rfl, by simp [serveBus, h, State.flag, State.answer]⟩
  · cases hb : s.isBusy
    · exact .inr (.inr ⟨rfl, rfl, by simp [serveBus, h, hb, State.answer]⟩)
    · exact .inr (.inl ⟨rfl, rfl, by simp [serveBus, h, hb, State.flag, State.answer]⟩)

theorem isBusy_eq_false_iff : s.isBusy = false ↔ s.phase = .idle := by
  unfold State.isBusy; split <;> simp_all

theorem isBusy_eq_true_iff : s.isBusy = true ↔ ∃ sn left, s.phase = .busy sn left := by
  unfold State.isBusy; split <;> simp_all

/-- The register of a named offset is that register (R21, R76). -/
theorem regAt_offset (r : Reg) : regAt r.offset = r := by
  cases r with
  | kekW w => revert w; decide
  | _ => rfl

/-- Only offset 0x00 is CMD. -/
theorem regAt_eq_cmd_iff (off : Nat) : regAt off = .cmd ↔ off = 0 := by
  constructor
  · intro h
    by_contra h0
    unfold regAt regMap at h
    simp only [List.lookup] at h
    repeat' split at h
    all_goals simp_all
  · rintro rfl; rfl

/-- Only offset 0x08 is KEK_LEN. -/
theorem regAt_eq_kekLen_iff (off : Nat) : regAt off = .kekLen ↔ off = 0x08 := by
  constructor
  · intro h
    by_contra h0
    unfold regAt regMap at h
    simp only [List.lookup] at h
    repeat' split at h
    all_goals simp_all
  · rintro rfl; rfl

/-- The host's turn on its oldest pending event (20_memory.md R62). -/
theorem hostTurn_cons {e : HostEvent} {rest : List HostEvent} (h : s.inbox = e :: rest) :
    hostTurn P s = serve P e { s with inbox := rest } := by simp [hostTurn, h]

@[simp] theorem serveAll_nil (P : Params) (s : State) : serveAll P [] s = s := rfl

@[simp] theorem serveAll_cons (P : Params) (e : HostEvent) (es : List HostEvent) (s : State) :
    serveAll P (e :: es) s = serveAll P es (serve P e s) := rfl

theorem serveAll_append (P : Params) (es fs : List HostEvent) (s : State) :
    serveAll P (es ++ fs) s = serveAll P fs (serveAll P es s) := by simp [serveAll, List.foldl_append]

end Sys2Proof.Machine
end

