-- ==== Sys2Proof/Laws/Bytes.lean ====
section
/-! SUPPORT. Byte strings, integers, semiblocks and blocks (00_scope.md R11, 40_keywrap.md R106). -/

namespace Sys2Proof.Machine

@[simp] theorem length_beBytes (k v : Nat) : (beBytes k v).length = k := by
  induction k generalizing v with
  | zero => rfl
  | succ k ih => simp [beBytes, ih]

@[simp] theorem length_semiblockBytes (a : Semiblock) : (semiblockBytes a).length = 8 := length_beBytes _ _

@[simp] theorem length_blockBytes (b : Block) : (blockBytes b).length = 16 := length_beBytes _ _

/-- Reading back a k-byte encoding loses what does not fit k bytes. -/
theorem uintBe_beBytes (k v : Nat) : uintBe (beBytes k v) = v % 256 ^ k := by
  induction k generalizing v with
  | zero => simp [beBytes, uintBe, Nat.mod_one]
  | succ k ih =>
    simp only [beBytes, uintBe, length_beBytes, ih, BitVec.toNat_ofNat]
    have h : v % (256 ^ k * 256) = v % 256 ^ k + 256 ^ k * (v / 256 ^ k % 256) := Nat.mod_mul
    rw [pow_succ 256 k, h]
    show v / 256 ^ k % 256 * 256 ^ k + v % 256 ^ k = v % 256 ^ k + 256 ^ k * (v / 256 ^ k % 256)
    ring

theorem uintBe_lt (s : List Byte) : uintBe s < 256 ^ s.length := by
  induction s with
  | nil => simp [uintBe]
  | cons b s ih =>
    have hb : b.toNat < 256 := b.isLt
    simp only [uintBe, List.length_cons, pow_succ]
    nlinarith

theorem beBytes_add_mul (k v c : Nat) : beBytes k (c * 256 ^ k + v) = beBytes k v := by
  induction k generalizing v c with
  | zero => rfl
  | succ k ih =>
    have h : c * 256 ^ (k + 1) + v = (c * 256) * 256 ^ k + v := by ring
    simp only [beBytes, h, ih]
    congr 1
    have hp : 0 < 256 ^ k := by positivity
    rw [Nat.add_comm, Nat.add_mul_div_right _ _ hp]
    apply BitVec.eq_of_toNat_eq
    simp [Nat.add_mul_mod_self_right]

/-- A byte string is the encoding of its own number. -/
theorem beBytes_uintBe (s : List Byte) : beBytes s.length (uintBe s) = s := by
  induction s with
  | nil => rfl
  | cons b s ih =>
    have hlt := uintBe_lt s
    have hp : 0 < 256 ^ s.length := by positivity
    simp only [List.length_cons, beBytes, uintBe, beBytes_add_mul, ih, List.cons.injEq, and_true]
    rw [Nat.add_comm, Nat.add_mul_div_right _ _ hp, Nat.div_eq_of_lt hlt]
    apply BitVec.eq_of_toNat_eq
    have hb : b.toNat < 256 := b.isLt
    simp

@[simp] theorem semiblockOf_semiblockBytes (a : Semiblock) : semiblockOf (semiblockBytes a) = a := by
  apply BitVec.eq_of_toNat_eq
  have h : a.toNat < 18446744073709551616 := a.isLt
  simp [semiblockOf, semiblockBytes, uintBe_beBytes, Nat.mod_eq_of_lt h]

theorem semiblockBytes_semiblockOf (s : List Byte) (h : s.length = 8) : semiblockBytes (semiblockOf s) = s := by
  have hlt := uintBe_lt s
  rw [h] at hlt
  have := beBytes_uintBe s
  rw [h] at this
  simp only [semiblockBytes, semiblockOf, BitVec.toNat_ofNat]
  rw [Nat.mod_eq_of_lt (by norm_num at hlt ⊢; exact hlt), this]

@[simp] theorem blockOf_blockBytes (b : Block) : blockOf (blockBytes b) = b := by
  apply BitVec.eq_of_toNat_eq
  have h : b.toNat < 340282366920938463463374607431768211456 := b.isLt
  simp [blockOf, blockBytes, uintBe_beBytes, Nat.mod_eq_of_lt h]

/-- Bits 63..0 of `A || R` are R, bits 127..64 are A. -/
theorem getLsbD_blockPair (a r : Semiblock) (i : Nat) :
    (blockPair a r).getLsbD i = if i < 64 then r.getLsbD i else a.getLsbD (i - 64) := by
  have h := BitVec.getLsbD_append (x := a) (y := r) (i := i)
  by_cases hi : i < 64 <;> simpa [hi, blockPair] using h

@[simp] theorem msb64_blockPair (a r : Semiblock) : msb64 (blockPair a r) = a := by
  apply BitVec.eq_of_getLsbD_eq
  intro i hi
  have h1 : ¬ 64 + i < 64 := by omega
  have h2 : 64 + i - 64 = i := by omega
  rw [msb64, BitVec.getLsbD_extractLsb', getLsbD_blockPair, if_neg h1, h2]
  simp [hi]

@[simp] theorem lsb64_blockPair (a r : Semiblock) : lsb64 (blockPair a r) = r := by
  apply BitVec.eq_of_getLsbD_eq
  intro i hi
  rw [lsb64, BitVec.getLsbD_extractLsb', getLsbD_blockPair, if_pos (by omega), Nat.zero_add]
  simp [hi]

@[simp] theorem blockPair_msb64_lsb64 (b : Block) : blockPair (msb64 b) (lsb64 b) = b := by
  apply BitVec.eq_of_getLsbD_eq
  intro i hi
  rw [getLsbD_blockPair, msb64, lsb64]
  by_cases h : i < 64
  · simp [h]
  · have h1 : i - 64 < 64 := by omega
    have h2 : 64 + (i - 64) = i := by omega
    simp [h, h1, h2]

/-! A block as its two semiblocks, on bytes (00_scope.md R11, 20_memory.md R56). -/

theorem uintBe_append (s t : List Byte) : uintBe (s ++ t) = uintBe s * 256 ^ t.length + uintBe t := by
  induction s with
  | nil => simp [uintBe]
  | cons b s ih => simp only [List.cons_append, uintBe, ih, List.length_append]; ring

/-- The bytes of `A || R` are those of A and then those of R. -/
theorem blockOf_append (a r : Semiblock) : blockOf (semiblockBytes a ++ semiblockBytes r) = blockPair a r := by
  apply BitVec.eq_of_toNat_eq
  have ha : a.toNat < 2 ^ 64 := a.isLt
  have hr : r.toNat < 2 ^ 64 := r.isLt
  rw [blockOf, uintBe_append, length_semiblockBytes, semiblockBytes, semiblockBytes, uintBe_beBytes, uintBe_beBytes,
    blockPair, BitVec.toNat_append, BitVec.toNat_ofNat, ← Nat.shiftLeft_add_eq_or_of_lt (by omega), Nat.shiftLeft_eq]
  omega

theorem blockBytes_blockPair (a r : Semiblock) : blockBytes (blockPair a r) = semiblockBytes a ++ semiblockBytes r := by
  have hb := beBytes_uintBe (semiblockBytes a ++ semiblockBytes r)
  have hl := uintBe_lt (semiblockBytes a ++ semiblockBytes r)
  simp only [List.length_append, length_semiblockBytes] at hb hl
  rw [← blockOf_append, blockBytes, blockOf, BitVec.toNat_ofNat, Nat.mod_eq_of_lt (by norm_num at hl ⊢; exact hl)]
  exact hb

/-- MSB64 is bytes 0..7 of a block. -/
theorem semiblockOf_take_blockBytes (b : Block) : semiblockOf ((blockBytes b).take 8) = msb64 b := by
  rw [← blockPair_msb64_lsb64 b, blockBytes_blockPair, List.take_append_of_le_length (by simp),
    List.take_of_length_le (by simp), semiblockOf_semiblockBytes, msb64_blockPair]

/-- LSB64 is bytes 8..15 of a block. -/
theorem semiblockOf_drop_blockBytes (b : Block) : semiblockOf ((blockBytes b).drop 8) = lsb64 b := by
  rw [← blockPair_msb64_lsb64 b, blockBytes_blockPair, List.drop_append_of_le_length (by simp),
    List.drop_of_length_le (by simp), List.nil_append, semiblockOf_semiblockBytes, lsb64_blockPair]

@[simp] theorem length_joinSemiblocks (r : List Semiblock) : (joinSemiblocks r).length = 8 * r.length := by
  induction r with
  | nil => rfl
  | cons a r ih =>
    have : joinSemiblocks (a :: r) = semiblockBytes a ++ joinSemiblocks r := rfl
    simp only [this, List.length_append, length_semiblockBytes, ih, List.length_cons]
    omega

@[simp] theorem length_semiblocks (d : List Byte) : (semiblocks d).length = d.length / 8 := by simp [semiblocks]

/-- The partition of 8 bytes and a rest (R106). -/
theorem semiblocks_append (s d : List Byte) (h : s.length = 8) :
    semiblocks (s ++ d) = semiblockOf s :: semiblocks d := by
  have hl : (s ++ d).length / 8 = d.length / 8 + 1 := by
    rw [List.length_append, h]; omega
  simp only [semiblocks, hl, List.range_succ_eq_map, List.map_cons, List.map_map]
  congr 1
  · simp [h]
  · apply List.map_congr_left
    intro i _
    have : 8 * (i + 1) = s.length + 8 * i := by omega
    simp [this]

@[simp] theorem semiblocks_joinSemiblocks (r : List Semiblock) : semiblocks (joinSemiblocks r) = r := by
  induction r with
  | nil => rfl
  | cons a r ih =>
    have : joinSemiblocks (a :: r) = semiblockBytes a ++ joinSemiblocks r := rfl
    rw [this, semiblocks_append _ _ (length_semiblockBytes a), ih, semiblockOf_semiblockBytes]

/-- Joining the partition of a whole number of semiblocks gives the byte string back. -/
theorem joinSemiblocks_semiblocks (d : List Byte) (h : d.length % 8 = 0) : joinSemiblocks (semiblocks d) = d := by
  obtain ⟨n, hn⟩ : ∃ n, d.length = 8 * n := ⟨d.length / 8, by omega⟩
  induction n generalizing d with
  | zero =>
    have : d = [] := List.length_eq_zero_iff.mp (by omega)
    subst this; rfl
  | succ n ih =>
    have h8 : (d.take 8).length = 8 := by simp; omega
    have hd : (d.drop 8).length = 8 * n := by simp; omega
    have key : semiblocks d = semiblockOf (d.take 8) :: semiblocks (d.drop 8) := by
      conv_lhs => rw [← List.take_append_drop 8 d]
      exact semiblocks_append _ _ h8
    have : joinSemiblocks (semiblockOf (d.take 8) :: semiblocks (d.drop 8)) =
        semiblockBytes (semiblockOf (d.take 8)) ++ joinSemiblocks (semiblocks (d.drop 8)) := rfl
    rw [key, this, ih _ (by omega) hd, semiblockBytes_semiblockOf _ h8, List.take_append_drop]

@[simp] theorem length_kekBytes (kek : Vector Word 8) : (kekBytes kek).length = 32 := by
  have h : ∀ l : List Word, (l.flatMap fun w => beBytes 4 w.toNat).length = 4 * l.length := by
    intro l
    induction l with
    | nil => rfl
    | cons w l ih => simp [ih]; omega
  simp [kekBytes, h]

end Sys2Proof.Machine
end

