-- ==== Sys2Proof/Laws/PerInstr.lean ====
section
/-! SUPPORT. Statements made of every constructor of `Instr`: the encoder's word decodes to the instruction again
(30_encoding.md R73, R75). -/

namespace Sys2Proof.Laws.RoundTrip

/-- Decoding the word of a well-formed instruction gives the instruction back. -/
def Statement (i : Instr) : Prop := i.wf = true → decode (encode i) = i

theorem wrap (ivSel : Bool) : Statement (.wrap ivSel) := by
  intro _; cases ivSel <;> rfl

theorem unwrap (ivSel : Bool) : Statement (.unwrap ivSel) := by
  intro _; cases ivSel <;> rfl

theorem wrapPad : Statement .wrapPad := fun _ => rfl

theorem unwrapPad : Statement .unwrapPad := fun _ => rfl

/-- An illegal term keeps its word, because the word is not legal. -/
theorem illegal (w : Word) : Statement (.illegal w) := by
  intro h
  simp only [Instr.wf, legal, Bool.not_eq_true', Bool.and_eq_false_iff, Bool.or_eq_false_iff, beq_eq_false_iff_ne,
    Bool.not_eq_false'] at h
  simp only [encode, decode]
  by_cases hv : ivSelField w = true <;> by_cases hr : reservedField w = 0 <;> simp_all

end Sys2Proof.Laws.RoundTrip
end

