-- ==== Sys2Proof/Laws/Memory.lean ====
section
/-! SUPPORT. The buffer laws: read after write, every other cell alone, and the canonical form kept. -/

namespace Sys2Proof.Machine

/-- Strictly rising offsets. -/
abbrev Rising (m : Memory) : Prop := m.Pairwise (fun c d => c.1 < d.1)

theorem Memory.find_eq_none {m : Memory} {q : Nat} (h : ∀ c ∈ m, c.1 ≠ q) : Memory.find m q = none := by
  induction m with
  | nil => rfl
  | cons c m ih =>
    simp only [List.mem_cons, forall_eq_or_imp] at h
    simp [Memory.find, h.1, ih h.2]

/-- What is listed after `put`, in any memory with rising offsets. -/
theorem Memory.find_put {m : Memory} (hm : Rising m) (q x : Nat) (b : Byte) :
    Memory.find (Memory.put m q b) x = if x = q then some b else Memory.find m x := by
  induction m with
  | nil =>
    by_cases h : x = q
    · simp [Memory.put, Memory.find, h]
    · simp [Memory.put, Memory.find, h, Ne.symm h]
  | cons c m ih =>
    have hc := List.pairwise_cons.mp hm
    unfold Memory.put
    split
    · rename_i hlt
      simp only [Memory.find, ih hc.2]
      by_cases h : c.1 = x
      · have : x ≠ q := by omega
        simp [h, this]
      · simp [h]
    · split
      · rename_i hq
        by_cases h : q = x <;> simp [Memory.find, hq, h, eq_comm]
      · rename_i h1 h2
        by_cases h : q = x
        · simp [Memory.find, h]
        · simp [Memory.find, h, Ne.symm h]

theorem Memory.find_drop {m : Memory} (q x : Nat) :
    Memory.find (Memory.drop m q) x = if x = q then none else Memory.find m x := by
  induction m with
  | nil => simp [Memory.drop, Memory.find]
  | cons c m ih =>
    simp only [Memory.drop, List.filter_cons] at ih ⊢
    by_cases hc : c.1 = q
    · simp only [hc, bne_self_eq_false, Bool.false_eq_true, if_false, ih, Memory.find]
      by_cases h : x = q
      · simp [h]
      · simp [h, Ne.symm h]
    · have hb : (c.1 != q) = true := by simp [hc]
      simp only [hb, if_true, Memory.find, ih]
      by_cases h : c.1 = x
      · have : x ≠ q := by omega
        simp [h, this]
      · simp [h]

/-- Read after write: the cell written reads as written, every other cell as before. -/
theorem Memory.find_write {m : Memory} (hm : Rising m) (blank : Option Byte) (q x : Nat) (b : Byte) :
    Memory.find (Memory.write blank m q b) x =
      if x = q then (if some b = blank then none else some b) else Memory.find m x := by
  unfold Memory.write
  split
  · simp [Memory.find_drop]
  · simp [Memory.find_put hm]

theorem Memory.mem_put {m : Memory} {q : Nat} {b : Byte} {c : Host.Cell} (h : c ∈ Memory.put m q b) :
    c = (q, b) ∨ c ∈ m := by
  induction m with
  | nil => simpa [Memory.put] using h
  | cons d m ih =>
    unfold Memory.put at h
    split at h
    · rcases List.mem_cons.mp h with h | h
      · exact .inr (h ▸ List.mem_cons_self)
      · exact (ih h).imp_right (List.mem_cons_of_mem _)
    · split at h
      · rcases List.mem_cons.mp h with h | h
        · exact .inl h
        · exact .inr (List.mem_cons_of_mem _ h)
      · rcases List.mem_cons.mp h with h | h
        · exact .inl h
        · exact .inr h

theorem Memory.rising_put {m : Memory} (hm : Rising m) (q : Nat) (b : Byte) : Rising (Memory.put m q b) := by
  induction m with
  | nil => simp [Memory.put, Rising]
  | cons c m ih =>
    have hc := List.pairwise_cons.mp hm
    unfold Memory.put
    split
    · rename_i hlt
      refine List.pairwise_cons.mpr ⟨fun d hd => ?_, ih hc.2⟩
      rcases Memory.mem_put hd with h | h
      · subst h; exact hlt
      · exact hc.1 d h
    · split
      · rename_i h1 h2
        exact List.pairwise_cons.mpr ⟨fun d hd => h2 ▸ hc.1 d hd, hc.2⟩
      · rename_i h1 h2
        refine List.pairwise_cons.mpr ⟨fun d hd => ?_, hm⟩
        rcases List.mem_cons.mp hd with h | h
        · subst h; show q < d.1; omega
        · have := hc.1 d h; show q < d.1; omega

theorem Memory.mem_write {blank : Option Byte} {m : Memory} {q : Nat} {b : Byte} {c : Host.Cell}
    (h : c ∈ Memory.write blank m q b) : (c = (q, b) ∧ some b ≠ blank) ∨ c ∈ m := by
  unfold Memory.write at h
  split at h
  · exact .inr (List.mem_of_mem_filter h)
  · rename_i hb; exact (Memory.mem_put h).imp_left fun e => ⟨e, hb⟩

/-- A write keeps the canonical form. -/
theorem Memory.wf_write {blank : Option Byte} {m : Memory} (hm : Memory.wf blank m) (q : Nat) (b : Byte) :
    Memory.wf blank (Memory.write blank m q b) := by
  refine ⟨?_, fun c hc => ?_⟩
  · unfold Memory.write
    split
    · exact hm.1.sublist List.filter_sublist
    · exact Memory.rising_put hm.1 q b
  · rcases Memory.mem_write hc with ⟨rfl, h⟩ | h
    · exact h
    · exact hm.2 c h

/-- A write below the limit keeps every cell below it. -/
theorem Memory.within_write {blank : Option Byte} {m : Memory} {limit : Nat} (hm : Memory.within limit m)
    {q : Nat} (hq : q < limit) (b : Byte) : Memory.within limit (Memory.write blank m q b) := by
  intro c hc
  rcases Memory.mem_write hc with ⟨rfl, _⟩ | h
  · exact hq
  · exact hm c h

theorem Memory.wf_writeBytes {blank : Option Byte} {m : Memory} (hm : Memory.wf blank m) (q : Nat) (s : List Byte) :
    Memory.wf blank (Memory.writeBytes blank m q s) := by
  induction s generalizing q with
  | nil => exact hm
  | cons b s ih => exact Memory.wf_write (ih (q + 1)) q b

theorem Memory.within_writeBytes {blank : Option Byte} {m : Memory} {limit : Nat} (hm : Memory.within limit m)
    (q : Nat) (s : List Byte) (h : q + s.length ≤ limit) : Memory.within limit (Memory.writeBytes blank m q s) := by
  induction s generalizing q with
  | nil => exact hm
  | cons b s ih =>
    simp only [List.length_cons] at h
    exact Memory.within_write (ih (q + 1) (by omega)) (by omega) b

/-- What the cells read as after a byte string is written from cell `q` on, with unlisted cells reading `z`. -/
theorem Memory.find_writeBytes {m : Memory} {z : Byte} (hm : Memory.wf (some z) m) (q x : Nat) (s : List Byte) :
    (Memory.find (Memory.writeBytes (some z) m q s) x).getD z =
      if q ≤ x ∧ x < q + s.length then s.getD (x - q) 0 else (Memory.find m x).getD z := by
  induction s generalizing q with
  | nil => simp only [Memory.writeBytes, List.length_nil]; rw [if_neg (by omega)]
  | cons b s ih =>
    have hw := Memory.wf_writeBytes hm (q + 1) s
    simp only [Memory.writeBytes, Memory.find_write hw.1, List.length_cons]
    by_cases hx : x = q
    · subst hx
      have hin : x ≤ x ∧ x < x + (s.length + 1) := by omega
      rw [if_pos rfl, if_pos hin]
      by_cases hb : b = z <;> simp [hb]
    · rw [if_neg hx, ih (q + 1)]
      by_cases h : q + 1 ≤ x ∧ x < q + 1 + s.length
      · have h' : q ≤ x ∧ x < q + (s.length + 1) := by omega
        have e : x - q = (x - (q + 1)) + 1 := by omega
        rw [if_pos h, if_pos h', e, List.getD_cons_succ]
      · have h' : ¬ (q ≤ x ∧ x < q + (s.length + 1)) := by omega
        rw [if_neg h, if_neg h']

/-- Two buffers in canonical form whose cells read the same are the same data. -/
theorem Memory.ext_of_find {blank : Option Byte} {m n : Memory} (hm : Memory.wf blank m) (hn : Memory.wf blank n)
    (h : ∀ q, Memory.find m q = Memory.find n q) : m = n := by
  induction m generalizing n with
  | nil =>
    cases n with
    | nil => rfl
    | cons d n => have := h d.1; simp [Memory.find] at this
  | cons c m ih =>
    cases n with
    | nil => have := h c.1; simp [Memory.find] at this
    | cons d n =>
      have hc := List.pairwise_cons.mp hm.1
      have hd := List.pairwise_cons.mp hn.1
      have later : ∀ {l : Memory} {x : Nat}, (∀ e ∈ l, x < e.1) → Memory.find l x = none := fun hl =>
        Memory.find_eq_none fun e he => by have := hl e he; omega
      have key : c.1 = d.1 := by
        rcases Nat.lt_trichotomy c.1 d.1 with hlt | heq | hgt
        · have := h c.1
          have hne : d.1 ≠ c.1 := by omega
          rw [Memory.find, if_pos rfl, Memory.find, if_neg hne,
            later fun e he => by have := hd.1 e he; omega] at this
          simp at this
        · exact heq
        · have := h d.1
          have hne : c.1 ≠ d.1 := by omega
          rw [Memory.find, if_neg hne, Memory.find, if_pos rfl,
            later fun e he => by have := hc.1 e he; omega] at this
          simp at this
      have val : c.2 = d.2 := by
        have := h c.1
        simpa [Memory.find, key] using this
      have tail : m = n := by
        refine ih ⟨hc.2, fun e he => hm.2 e (List.mem_cons_of_mem _ he)⟩
          ⟨hd.2, fun e he => hn.2 e (List.mem_cons_of_mem _ he)⟩ fun q => ?_
        by_cases hq : c.1 = q
        · subst hq
          rw [later hc.1, later (by rw [key]; exact hd.1)]
        · have := h q
          have hq' : d.1 ≠ q := by rw [← key]; exact hq
          simpa [Memory.find, hq, hq'] using this
      rw [tail, Prod.ext key val]

end Sys2Proof.Machine
end

