-- ==== Sys2Proof/Laws/Ops.lean ====
section
/-! SUPPORT. One spec lemma per shared operation over the command state: the command in flight, COMPLETE, and what
`execIn` is made of. -/

namespace Sys2Proof.Machine

/-- In BUSY the command in flight is the snapshot's, and it completes in the state itself. -/
theorem inFlight_busy {P : Params} {w : Word} {s : State} {sn : Snapshot} {left : Nat} (h : s.phase = .busy sn left) :
    inFlight P w s = (sn, s) := by simp [inFlight, h]

/-- In IDLE the word is accepted first. -/
theorem inFlight_idle {P : Params} {w : Word} {s : State} (h : s.phase = .idle) :
    inFlight P w s = (capture P w s, accept P w s) := by simp [inFlight, h]

/-- Every command is COMPLETE of its result (42_host_commands.md R162, R165). -/
theorem execIn_eq (P : Params) (i : Instr) (s : State) :
    execIn P i s = .next (complete P (resultOf P i (inFlight P (encode i) s).1) (inFlight P (encode i) s).2) := by
  cases i <;> rfl

/-- A command in flight completes with its result on its snapshot. -/
theorem execIn_busy {P : Params} {i : Instr} {s : State} {sn : Snapshot} {left : Nat} (h : s.phase = .busy sn left) :
    execIn P i s = .next (complete P (resultOf P i sn) s) := by
  rw [execIn_eq, inFlight_busy h]

/-- COMPLETE of a success. -/
theorem complete_success {P : Params} {r : Result} {s : State} (h : r.err = .none) :
    complete P r s = { (commitSuccess P r.out s).setStatus .none with phase := .idle } := by simp [complete, h]

/-- COMPLETE of a failure reports the error and writes nothing else. -/
theorem complete_failure {P : Params} {r : Result} {s : State} (h : r.err ≠ .none) :
    complete P r s = { s with phase := .idle, done := true, err := r.err } := by
  unfold complete
  split
  · contradiction
  · rfl

@[simp] theorem complete_phase (P : Params) (r : Result) (s : State) : (complete P r s).phase = .idle := by
  unfold complete; split <;> rfl

@[simp] theorem complete_done (P : Params) (r : Result) (s : State) : (complete P r s).done = true := by
  unfold complete; split <;> rfl

@[simp] theorem complete_err (P : Params) (r : Result) (s : State) : (complete P r s).err = r.err := by
  unfold complete
  split
  · rename_i h; exact h.symm
  · rfl

@[simp] theorem complete_resets (P : Params) (r : Result) (s : State) : (complete P r s).resets = s.resets := by
  unfold complete; split <;> rfl

@[simp] theorem complete_ibuf (P : Params) (r : Result) (s : State) : (complete P r s).ibuf = s.ibuf := by
  unfold complete; split <;> rfl

/-- COMPLETE writes the phase, STATUS, OBUF and OUT_LEN, and nothing else (R165, R212). -/
theorem complete_frame (P : Params) (r : Result) (s : State) :
    complete P r s = { s with
      phase := .idle, done := true, err := r.err, obuf := (complete P r s).obuf
      outLenLo := (complete P r s).outLenLo, outLenHi := (complete P r s).outLenHi } := by
  unfold complete
  split
  · rename_i h; rw [h]; rfl
  · rfl

/-- The OBUF cells after a byte string is stored from cell 0 on. -/
theorem obufAt_commitSuccess {P : Params} {s : State} (hs : Memory.wf (some 0) s.obuf) (out : List Byte) (q : Nat) :
    (commitSuccess P out s).obufAt q = if q < out.length then out.getD q 0 else s.obufAt q := by
  have h := Memory.find_writeBytes hs 0 q out
  simpa [State.obufAt, Space.blank] using h

/-- Reading the whole stored result back. -/
theorem obufBytes_commitSuccess {P : Params} {s : State} (hs : Memory.wf (some 0) s.obuf) (out : List Byte) :
    (commitSuccess P out s).obufBytes out.length = out := by
  apply List.ext_getElem
  · simp [State.obufBytes]
  · intro i h1 h2
    simp [State.obufBytes, obufAt_commitSuccess hs, h2]

/-- OUT_LEN after a result that 64 bits can count. -/
theorem outLen_commitSuccess {P : Params} {s : State} {out : List Byte} (h : out.length < 2 ^ 64) :
    (commitSuccess P out s).outLen = BitVec.ofNat 64 out.length := by
  apply BitVec.eq_of_toNat_eq
  simp only [State.outLen, commitSuccess_outLenHi, commitSuccess_outLenLo, outLenHiOf, if_pos h, BitVec.toNat_append,
    BitVec.toNat_ofNat]
  have h1 : out.length / 2 ^ 32 % 2 ^ 32 = out.length / 2 ^ 32 := Nat.mod_eq_of_lt (by omega)
  have h2 : out.length % 2 ^ 64 = out.length := Nat.mod_eq_of_lt h
  rw [h1, ← Nat.shiftLeft_add_eq_or_of_lt (by omega), Nat.shiftLeft_eq]
  omega

@[simp] theorem length_ibufBytes (P : Params) (s : State) (n : Nat) : (s.ibufBytes P n).length = n := by
  simp [State.ibufBytes]

@[simp] theorem length_obufBytes (s : State) (n : Nat) : (s.obufBytes n).length = n := by simp [State.obufBytes]

end Sys2Proof.Machine
end

