-- ==== Sys2Proof/Laws/Transforms.lean ====
section
/-! SUPPORT. The core transforms (40_keywrap.md R102, R103): the loop orders, one loop body undoing the other, and
what a whole loop keeps. -/

namespace Sys2Proof.Machine

/-- Every index of the wrap loop is in range (R102). -/
theorem mem_wrapOrder {n : Nat} {ji : Nat × Nat} (h : ji ∈ wrapOrder n) : ji.1 ≤ 5 ∧ 1 ≤ ji.2 ∧ ji.2 ≤ n := by
  simp only [wrapOrder, List.mem_flatMap, List.mem_range, List.mem_map] at h
  obtain ⟨j, hj, i, hi, rfl⟩ := h
  omega

theorem length_wrapOrder (n : Nat) : (wrapOrder n).length = 6 * n := by
  simp [wrapOrder, List.length_flatMap]
  omega

theorem map_range_reverse {α : Type} (f : Nat → α) (n : Nat) :
    (List.range n).map (fun i => f (n - i)) = ((List.range n).map fun i => f (i + 1)).reverse := by
  apply List.ext_getElem
  · simp
  · intro i h1 h2
    simp only [List.length_map, List.length_range] at h1
    have : n - i = n - 1 - i + 1 := by omega
    simp [List.getElem_reverse, this]

/-- The unwrap loop visits the indices of the wrap loop in the opposite order (R103). -/
theorem unwrapOrder_eq_reverse (n : Nat) : unwrapOrder n = (wrapOrder n).reverse := by
  have h : ∀ j : Nat, ((List.range n).map fun i => (j, n - i)) = ((List.range n).map fun i => (j, i + 1)).reverse :=
    fun j => map_range_reverse (fun i => (j, i)) n
  simp only [unwrapOrder, wrapOrder]
  simp [List.range_succ, h, List.reverse_append]

theorem length_unwrapOrder (n : Nat) : (unwrapOrder n).length = 6 * n := by
  rw [unwrapOrder_eq_reverse, List.length_reverse, length_wrapOrder]

@[simp] theorem wrapBody_r_length (P : Params) (k : List Byte) (n j i : Nat) (w : Work) :
    (wrapBody P k n j i w).r.length = w.r.length := by simp [wrapBody]

@[simp] theorem unwrapBody_r_length (P : Params) (k : List Byte) (n j i : Nat) (w : Work) :
    (unwrapBody P k n j i w).r.length = w.r.length := by simp [unwrapBody]

theorem Work.reg_eq {w : Work} {i : Nat} (h1 : 1 ≤ i) (h2 : i ≤ w.r.length) :
    w.reg i = w.r[i - 1]'(by omega) := by
  simp [Work.reg, List.getD_eq_getElem?_getD, List.getElem?_eq_getElem (show i - 1 < w.r.length by omega)]

/-- What a body of one direction writes into R[i], the body of the other direction reads (R104). -/
theorem Work.reg_set {w : Work} {i : Nat} {x a : Semiblock} {c : List CipherCall} (h1 : 1 ≤ i) (h2 : i ≤ w.r.length) :
    (⟨a, w.r.set (i - 1) x, c⟩ : Work).reg i = x := by
  rw [Work.reg_eq h1 (by simpa using h2)]
  simp

theorem set_reg {w : Work} {i : Nat} (h1 : 1 ≤ i) (h2 : i ≤ w.r.length) : w.r.set (i - 1) (w.reg i) = w.r := by
  rw [Work.reg_eq h1 h2, List.set_getElem_self]

variable {P : Params} {k : List Byte}

/-- One step of U undoes the step of W with the same indices (R104). -/
theorem unwrapBody_wrapBody (hk : ∀ x, P.dec k (P.enc k x) = x) (n j : Nat) {i : Nat} {w : Work} (h1 : 1 ≤ i)
    (h2 : i ≤ w.r.length) :
    (unwrapBody P k n j i (wrapBody P k n j i w)).a = w.a ∧ (unwrapBody P k n j i (wrapBody P k n j i w)).r = w.r := by
  simp only [unwrapBody, wrapBody, Work.reg_set h1 h2, cipher, BitVec.xor_assoc, BitVec.xor_self, BitVec.xor_zero,
    blockPair_msb64_lsb64, hk, msb64_blockPair, lsb64_blockPair, List.set_set, set_reg h1 h2, and_self]

/-- One step of W undoes the step of U with the same indices. -/
theorem wrapBody_unwrapBody (hk : ∀ x, P.enc k (P.dec k x) = x) (n j : Nat) {i : Nat} {w : Work} (h1 : 1 ≤ i)
    (h2 : i ≤ w.r.length) :
    (wrapBody P k n j i (unwrapBody P k n j i w)).a = w.a ∧ (wrapBody P k n j i (unwrapBody P k n j i w)).r = w.r := by
  simp only [unwrapBody, wrapBody, Work.reg_set h1 h2, cipher, BitVec.xor_assoc, BitVec.xor_self, BitVec.xor_zero,
    blockPair_msb64_lsb64, hk, msb64_blockPair, lsb64_blockPair, List.set_set, set_reg h1 h2, and_self]

/-- A body reads A and R only: two working states that agree on those agree on them after it. -/
theorem wrapBody_congr {n j i : Nat} {w v : Work} (ha : w.a = v.a) (hr : w.r = v.r) :
    (wrapBody P k n j i w).a = (wrapBody P k n j i v).a ∧ (wrapBody P k n j i w).r = (wrapBody P k n j i v).r := by
  simp [wrapBody, Work.reg, ha, hr]

theorem unwrapBody_congr {n j i : Nat} {w v : Work} (ha : w.a = v.a) (hr : w.r = v.r) :
    (unwrapBody P k n j i w).a = (unwrapBody P k n j i v).a ∧ (unwrapBody P k n j i w).r = (unwrapBody P k n j i v).r := by
  simp [unwrapBody, Work.reg, ha, hr]

/-- A loop of `f` over indices, then the loop of `g` over them in the opposite order, gives A and R back, where each
step of `g` undoes the step of `f` on working states of `n` semiblocks. -/
theorem foldl_reverse_undoes {f g : Nat × Nat → Work → Work} {n : Nat} {l : List (Nat × Nat)}
    (hf : ∀ ji ∈ l, ∀ w : Work, w.r.length = n → (f ji w).r.length = n)
    (hg : ∀ ji ∈ l, ∀ w v : Work, w.a = v.a → w.r = v.r → (g ji w).a = (g ji v).a ∧ (g ji w).r = (g ji v).r)
    (hgf : ∀ ji ∈ l, ∀ w : Work, w.r.length = n → (g ji (f ji w)).a = w.a ∧ (g ji (f ji w)).r = w.r)
    (w v : Work) (hw : w.r.length = n) (ha : v.a = (l.foldl (fun u ji => f ji u) w).a)
    (hr : v.r = (l.foldl (fun u ji => f ji u) w).r) :
    (l.reverse.foldl (fun u ji => g ji u) v).a = w.a ∧ (l.reverse.foldl (fun u ji => g ji u) v).r = w.r := by
  induction l generalizing w with
  | nil => exact ⟨ha, hr⟩
  | cons ji l ih =>
    have hmem : ji ∈ ji :: l := List.mem_cons_self
    have sub : ∀ x ∈ l, x ∈ ji :: l := fun x h => List.mem_cons_of_mem _ h
    have inner := ih (fun x h => hf x (sub x h)) (fun x h => hg x (sub x h)) (fun x h => hgf x (sub x h))
      (f ji w) (hf ji hmem w hw) ha hr
    rw [List.reverse_cons, List.foldl_append]
    simp only [List.foldl_cons, List.foldl_nil]
    have step := hg ji hmem _ (f ji w) inner.1 inner.2
    have undo := hgf ji hmem w hw
    exact ⟨step.1.trans undo.1, step.2.trans undo.2⟩

/-- A loop keeps the number of semiblocks where each body does. -/
theorem foldl_r_length {f : Nat × Nat → Work → Work} (hf : ∀ ji w, (f ji w).r.length = w.r.length)
    (l : List (Nat × Nat)) (w : Work) : (l.foldl (fun u ji => f ji u) w).r.length = w.r.length := by
  induction l generalizing w with
  | nil => rfl
  | cons ji l ih => rw [List.foldl_cons, ih, hf]

@[simp] theorem length_wrapTransform_r (P : Params) (k : List Byte) (a : Semiblock) (p : List Semiblock) :
    (wrapTransform P k a p).r.length = p.length :=
  foldl_r_length (f := fun ji w => wrapBody P k p.length ji.1 ji.2 w) (fun _ _ => by simp) _ _

@[simp] theorem length_unwrapTransform_r (P : Params) (k : List Byte) (a : Semiblock) (p : List Semiblock) :
    (unwrapTransform P k a p).r.length = p.length :=
  foldl_r_length (f := fun ji w => unwrapBody P k p.length ji.1 ji.2 w) (fun _ _ => by simp) _ _

@[simp] theorem length_output (w : Work) : w.output.length = 8 * w.r.length + 8 := by
  simp [Work.output]; omega

/-- A loop whose bodies each make one call, of a given direction and key, makes one call per index. -/
theorem foldl_calls {f : Nat × Nat → Work → Work} {d : CipherDir} {k : List Byte}
    (hf : ∀ ji w, ∃ x, (f ji w).calls = w.calls ++ [⟨d, k, x⟩]) (l : List (Nat × Nat)) (w : Work) :
    (l.foldl (fun u ji => f ji u) w).calls.length = w.calls.length + l.length ∧
    ((∀ c ∈ w.calls, c.dir = d ∧ c.key = k) → ∀ c ∈ (l.foldl (fun u ji => f ji u) w).calls, c.dir = d ∧ c.key = k) := by
  induction l generalizing w with
  | nil => exact ⟨rfl, fun h => h⟩
  | cons ji l ih =>
    obtain ⟨x, hx⟩ := hf ji w
    have := ih (f ji w)
    rw [List.foldl_cons]
    refine ⟨by rw [this.1, hx]; simp; omega, fun h => this.2 fun c hc => ?_⟩
    rw [hx, List.mem_append, List.mem_singleton] at hc
    rcases hc with hc | rfl
    · exact h c hc
    · exact ⟨rfl, rfl⟩

/-- The cipher calls of W (R102): exactly 6n, all ENC, all under the command's key. -/
theorem wrapTransform_calls (P : Params) (k : List Byte) (a : Semiblock) (p : List Semiblock) :
    (wrapTransform P k a p).calls.length = 6 * p.length ∧
    ∀ c ∈ (wrapTransform P k a p).calls, c.dir = .enc ∧ c.key = k := by
  have h := foldl_calls (f := fun ji w => wrapBody P k p.length ji.1 ji.2 w) (d := .enc) (k := k)
    (fun ji w => ⟨_, rfl⟩) (wrapOrder p.length) ⟨a, p, []⟩
  exact ⟨by simpa [length_wrapOrder, wrapTransform] using h.1, h.2 (by simp)⟩

/-- The cipher calls of U (R103): exactly 6n, all DEC, all under the command's key. -/
theorem unwrapTransform_calls (P : Params) (k : List Byte) (a : Semiblock) (p : List Semiblock) :
    (unwrapTransform P k a p).calls.length = 6 * p.length ∧
    ∀ c ∈ (unwrapTransform P k a p).calls, c.dir = .dec ∧ c.key = k := by
  have h := foldl_calls (f := fun ji w => unwrapBody P k p.length ji.1 ji.2 w) (d := .dec) (k := k)
    (fun ji w => ⟨_, rfl⟩) (unwrapOrder p.length) ⟨a, p, []⟩
  exact ⟨by simpa [length_unwrapOrder, unwrapTransform] using h.1, h.2 (by simp)⟩

end Sys2Proof.Machine
end

