-- ==== Sys2Proof/Laws/Results.lean ====
section
/-! SUPPORT. One spec lemma per command: what its pure result can be (40_keywrap.md R109, R112;
41_padded_keywrap.md R135, R137), and the facts about lengths those results rest on. -/

namespace Sys2Proof.Machine

/-- The model's key-length check is the rule's (R24). -/
theorem keyLengthLegal_iff (klen : Byte) : keyLengthLegal klen = true ↔ LegalKeyLength klen.toNat := by
  simp only [keyLengthLegal, LegalKeyLength, Bool.or_eq_true, beq_iff_eq, ← BitVec.toNat_inj]
  simp [or_assoc]

theorem keyLengthLegal_eq_false_iff (klen : Byte) : keyLengthLegal klen = false ↔ ¬ LegalKeyLength klen.toNat := by
  rw [← keyLengthLegal_iff, Bool.not_eq_true]

@[simp] theorem Result.raise_err (e : ErrCode) (c : List CipherCall) : (Result.raise e c).err = e := rfl
@[simp] theorem Result.raise_out (e : ErrCode) (c : List CipherCall) : (Result.raise e c).out = [] := rfl
@[simp] theorem Result.raise_calls (e : ErrCode) (c : List CipherCall) : (Result.raise e c).calls = c := rfl
@[simp] theorem Result.success_err (o : List Byte) (c : List CipherCall) : (Result.success o c).err = .none := rfl
@[simp] theorem Result.success_out (o : List Byte) (c : List CipherCall) : (Result.success o c).out = o := rfl
@[simp] theorem Result.success_calls (o : List Byte) (c : List CipherCall) : (Result.success o c).calls = c := rfl

variable {P : Params} {sn : Snapshot}

/-! The checks pass exactly on legal operands. -/

theorem wrapCheck_eq_none_iff (klen : Byte) (len : Nat) : wrapCheck P klen len = none ↔
    LegalKeyLength klen.toNat ∧ len % 8 = 0 ∧ 16 ≤ len ∧ len / 8 ≤ P.sbMax := by
  unfold wrapCheck
  split_ifs with h1 h2 h3 <;> simp only [keyLengthLegal_eq_false_iff] at h1 <;> simp <;> omega

theorem unwrapCheck_eq_none_iff (klen : Byte) (len : Nat) : unwrapCheck P klen len = none ↔
    LegalKeyLength klen.toNat ∧ len % 8 = 0 ∧ 24 ≤ len ∧ len / 8 - 1 ≤ P.sbMax := by
  unfold unwrapCheck
  split_ifs with h1 h2 h3 <;> simp only [keyLengthLegal_eq_false_iff] at h1 <;> simp <;> omega

theorem wrapPadCheck_eq_none_iff (klen : Byte) (m : Nat) : wrapPadCheck P klen m = none ↔
    LegalKeyLength klen.toNat ∧ 1 ≤ m ∧ m ≤ 2 ^ 32 - 1 ∧ (m + 7) / 8 ≤ P.sbMax := by
  unfold wrapPadCheck paddedSemiblocks
  split_ifs with h1 h2 h3 <;> simp only [keyLengthLegal_eq_false_iff] at h1 <;> simp <;> omega

theorem unwrapPadCheck_eq_none_iff (klen : Byte) (len : Nat) : unwrapPadCheck P klen len = none ↔
    LegalKeyLength klen.toNat ∧ (len = 16 ∨ (len % 8 = 0 ∧ 24 ≤ len ∧ len / 8 - 1 ≤ P.sbMax)) := by
  unfold unwrapPadCheck
  split_ifs with h1 h2 h3 <;> simp only [keyLengthLegal_eq_false_iff] at h1 <;> simp <;> omega

/-! What each command's result can be. -/

/-- WRAP (R109): the error of its first failing check, or A || R[1] || ... || R[n]. -/
theorem wrapResult_cases (P : Params) (ivSel : Bool) (sn : Snapshot) :
    (∃ e, wrapCheck P sn.klen sn.length = some e ∧ wrapResult P ivSel sn = .raise e []) ∨
    (wrapCheck P sn.klen sn.length = none ∧ wrapResult P ivSel sn =
      .success (wrapTransform P sn.key (icvOf ivSel sn) (semiblocks sn.data)).output
        (wrapTransform P sn.key (icvOf ivSel sn) (semiblocks sn.data)).calls) := by
  unfold wrapResult
  cases h : wrapCheck P sn.klen sn.length with
  | some e => exact .inl ⟨e, rfl, rfl⟩
  | none => exact .inr ⟨rfl, rfl⟩

/-- What UNWRAP and the multi-round UNWRAP_PAD recover (R112, R137). -/
def recovered (P : Params) (sn : Snapshot) : Work :=
  unwrapTransform P sn.key (semiblockOf (sn.data.take 8)) (semiblocks (sn.data.drop 8))

/-- UNWRAP (R112): a check's error, the integrity error, or R[1] || ... || R[n]. -/
theorem unwrapResult_cases (P : Params) (ivSel : Bool) (sn : Snapshot) :
    (∃ e, unwrapCheck P sn.klen sn.length = some e ∧ unwrapResult P ivSel sn = .raise e []) ∨
    (unwrapCheck P sn.klen sn.length = none ∧ (recovered P sn).a ≠ icvOf ivSel sn ∧
      unwrapResult P ivSel sn = .raise .integrityCheckFailed (recovered P sn).calls) ∨
    (unwrapCheck P sn.klen sn.length = none ∧ (recovered P sn).a = icvOf ivSel sn ∧
      unwrapResult P ivSel sn = .success (joinSemiblocks (recovered P sn).r) (recovered P sn).calls) := by
  unfold unwrapResult
  cases h : unwrapCheck P sn.klen sn.length with
  | some e => exact .inl ⟨e, rfl, rfl⟩
  | none =>
    by_cases ha : (recovered P sn).a = icvOf ivSel sn
    · exact .inr (.inr ⟨rfl, ha, if_neg (not_not.mpr ha)⟩)
    · exact .inr (.inl ⟨rfl, ha, if_pos ha⟩)

/-- WRAP_PAD (R135): a check's error, the shortcut's block, or the wrap transform's output. -/
theorem wrapPadResult_cases (P : Params) (sn : Snapshot) :
    (∃ e, wrapPadCheck P sn.klen sn.length = some e ∧ wrapPadResult P sn = .raise e []) ∨
    (wrapPadCheck P sn.klen sn.length = none ∧ (pad sn.data).length / 8 = 1 ∧ wrapPadResult P sn =
      .success (blockBytes (P.enc sn.key (blockPair (aivOf sn.length) (semiblockOf (pad sn.data)))))
        [⟨.enc, sn.key, blockPair (aivOf sn.length) (semiblockOf (pad sn.data))⟩]) ∨
    (wrapPadCheck P sn.klen sn.length = none ∧ (pad sn.data).length / 8 ≠ 1 ∧ wrapPadResult P sn =
      .success (wrapTransform P sn.key (aivOf sn.length) (semiblocks (pad sn.data))).output
        (wrapTransform P sn.key (aivOf sn.length) (semiblocks (pad sn.data))).calls) := by
  unfold wrapPadResult
  cases h : wrapPadCheck P sn.klen sn.length with
  | some e => exact .inl ⟨e, rfl, rfl⟩
  | none =>
    by_cases h1 : (pad sn.data).length / 8 = 1
    · exact .inr (.inl ⟨rfl, h1, if_pos h1⟩)
    · exact .inr (.inr ⟨rfl, h1, if_neg h1⟩)

/-- UNWRAP_PAD (R137): a check's error, the integrity error, or the first MLI bytes of what was recovered. -/
theorem unwrapPadResult_cases (P : Params) (sn : Snapshot) :
    (∃ e, unwrapPadCheck P sn.klen sn.length = some e ∧ unwrapPadResult P sn = .raise e []) ∨
    (unwrapPadCheck P sn.klen sn.length = none ∧ aivCheck (recoverPadded P sn).1 (recoverPadded P sn).2.1 = none ∧
      unwrapPadResult P sn = .raise .integrityCheckFailed (recoverPadded P sn).2.2) ∨
    (∃ mli, unwrapPadCheck P sn.klen sn.length = none ∧
      aivCheck (recoverPadded P sn).1 (recoverPadded P sn).2.1 = some mli ∧
      unwrapPadResult P sn = .success ((recoverPadded P sn).2.1.take mli) (recoverPadded P sn).2.2) := by
  unfold unwrapPadResult
  cases h : unwrapPadCheck P sn.klen sn.length with
  | some e => exact .inl ⟨e, rfl, rfl⟩
  | none =>
    cases ha : aivCheck (recoverPadded P sn).1 (recoverPadded P sn).2.1 with
    | none => exact .inr (.inl ⟨rfl, rfl, by simp only [ha]⟩)
    | some mli => exact .inr (.inr ⟨mli, rfl, rfl, by simp only [ha]⟩)

/-- The multi-round path of UNWRAP_PAD recovers what U does (R137). -/
theorem recoverPadded_long (h : sn.length ≠ 16) :
    recoverPadded P sn = ((recovered P sn).a, joinSemiblocks (recovered P sn).r, (recovered P sn).calls) := by
  simp [recoverPadded, recovered, h]

/-- The shortcut of UNWRAP_PAD recovers the halves of one deciphered block (R133). -/
theorem recoverPadded_short (h : sn.length = 16) :
    recoverPadded P sn = (msb64 (P.dec sn.key (blockOf sn.data)),
      semiblockBytes (lsb64 (P.dec sn.key (blockOf sn.data))), [⟨.dec, sn.key, blockOf sn.data⟩]) := by
  simp [recoverPadded, cipher, h]

/-! Padding. -/

theorem length_pad (p : List Byte) : (pad p).length = 8 * ((p.length + 7) / 8) := by
  simp [pad, padLen]; omega

/-- A whole number of semiblocks is padded with nothing but zero bytes (R131). -/
theorem pad_eq (p : List Byte) : pad p = p ++ List.replicate ((8 - p.length % 8) % 8) 0 := rfl

/-- A result is empty unless its error is NONE (R162). -/
theorem out_eq_nil_of_err (i : Instr) (h : (resultOf P i sn).err ≠ .none) : (resultOf P i sn).out = [] := by
  cases i with
  | wrap ivSel =>
    simp only [resultOf] at h ⊢
    rcases wrapResult_cases P ivSel sn with ⟨e, _, r⟩ | ⟨_, r⟩ <;> simp [r] at h ⊢
  | unwrap ivSel =>
    simp only [resultOf] at h ⊢
    rcases unwrapResult_cases P ivSel sn with ⟨e, _, r⟩ | ⟨_, _, r⟩ | ⟨_, _, r⟩ <;> simp [r] at h ⊢
  | wrapPad =>
    simp only [resultOf] at h ⊢
    rcases wrapPadResult_cases P sn with ⟨e, _, r⟩ | ⟨_, _, r⟩ | ⟨_, _, r⟩ <;> simp [r] at h ⊢
  | unwrapPad =>
    simp only [resultOf] at h ⊢
    rcases unwrapPadResult_cases P sn with ⟨e, _, r⟩ | ⟨_, _, r⟩ | ⟨mli, _, _, r⟩ <;> simp [r] at h ⊢
  | illegal w => rfl

/-- No result is longer than OBUF (R31), for a command whose input is as its length says. -/
theorem length_out_le (i : Instr) (hd : sn.data.length = min sn.length P.bufBytes) :
    (resultOf P i sn).out.length ≤ P.bufBytes := by
  have hb : P.bufBytes = 8 * (P.sbMax + 1) := rfl
  cases i with
  | wrap ivSel =>
    simp only [resultOf]
    rcases wrapResult_cases P ivSel sn with ⟨e, _, r⟩ | ⟨hc, r⟩
    · simp [r]
    · rw [wrapCheck_eq_none_iff] at hc
      rw [r]; simp only [Result.success_out, length_output, length_wrapTransform_r, length_semiblocks]; omega
  | unwrap ivSel =>
    simp only [resultOf]
    rcases unwrapResult_cases P ivSel sn with ⟨e, _, r⟩ | ⟨_, _, r⟩ | ⟨hc, _, r⟩
    · simp [r]
    · simp [r]
    · rw [r]
      simp only [Result.success_out, length_joinSemiblocks, recovered, length_unwrapTransform_r, length_semiblocks,
        List.length_drop]
      omega
  | wrapPad =>
    simp only [resultOf]
    rcases wrapPadResult_cases P sn with ⟨e, _, r⟩ | ⟨hc, h1, r⟩ | ⟨hc, _, r⟩
    · simp [r]
    · rw [wrapPadCheck_eq_none_iff] at hc
      rw [r]; simp only [Result.success_out, length_blockBytes]; omega
    · rw [wrapPadCheck_eq_none_iff] at hc
      rw [r]
      simp only [Result.success_out, length_output, length_wrapTransform_r, length_semiblocks, length_pad]
      omega
  | unwrapPad =>
    simp only [resultOf]
    rcases unwrapPadResult_cases P sn with ⟨e, _, r⟩ | ⟨_, _, r⟩ | ⟨mli, hc, _, r⟩
    · simp [r]
    · simp [r]
    · rw [r, Result.success_out]
      refine (List.length_take_le' ..).trans ?_
      by_cases h16 : sn.length = 16
      · rw [recoverPadded_short h16]
        simp only [length_semiblockBytes]; omega
      · rw [recoverPadded_long h16]
        simp only [length_joinSemiblocks, recovered, length_unwrapTransform_r, length_semiblocks, List.length_drop]
        omega
  | illegal w => simp [resultOf, illegalResult]

end Sys2Proof.Machine
end

