-- ==== Sys2Proof/Laws/Commands.lean ====
section
/-! SUPPORT. What every command of `exec` is made of: the word's cases (30_encoding.md R73), the error of a failing
check, the snapshot of a BUSY state that meets the invariant, and COMPLETE in the terms claims use
(42_host_commands.md R165, R166). -/

namespace Sys2Proof.Machine

variable {P : Params} {s : State} {sn : Snapshot} {left : Nat}

/-- This machine's commands are `execIn` under its parameters. -/
theorem exec_eq_execIn (i : Instr) (s : State) : exec i s = execIn Config.params i s := by cases i <;> rfl

theorem exec_eq : exec = execIn Config.params := by funext i s; exact exec_eq_execIn i s

/-- What a word decodes to, with its fields (R73, R75). -/
theorem decode_cases (w : Word) :
    (legal w = true ∧
      ((decode w = .wrap (ivSelField w) ∧ opField w = 1) ∨ (decode w = .unwrap (ivSelField w) ∧ opField w = 2) ∨
        (decode w = .wrapPad ∧ opField w = 3) ∨ (decode w = .unwrapPad ∧ opField w = 4))) ∨
    (legal w = false ∧ decode w = .illegal w) := by
  by_cases h : legal w = true
  · refine .inl ⟨h, ?_⟩
    simp only [legal, Bool.and_eq_true, beq_iff_eq, Bool.or_eq_true, Bool.not_eq_true'] at h
    obtain ⟨h0, (h1 | h1) | ⟨h1 | h1, h2⟩⟩ := h
    · exact .inl ⟨by simp [decode, h0, h1], h1⟩
    · exact .inr (.inl ⟨by simp [decode, h0, h1], h1⟩)
    · exact .inr (.inr (.inl ⟨by simp [decode, h0, h1, h2], h1⟩))
    · exact .inr (.inr (.inr ⟨by simp [decode, h0, h1, h2], h1⟩))
  · rw [Bool.not_eq_true] at h
    exact .inr ⟨h, Laws.RoundTrip.illegal w (by simp [Instr.wf, h])⟩

/-! The error of a check that fails. -/

theorem wrapCheck_eq_some {klen : Byte} {len : Nat} {e : ErrCode} (h : wrapCheck P klen len = some e) :
    (¬ LegalKeyLength klen.toNat ∧ e = .invalidKeyLength) ∨
    (LegalKeyLength klen.toNat ∧ e = .invalidPlaintextLength) := by
  by_cases hk : LegalKeyLength klen.toNat
  · refine .inr ⟨hk, ?_⟩
    simp only [wrapCheck, (keyLengthLegal_iff _).mpr hk] at h
    split_ifs at h <;> first | (injection h with h; exact h.symm) | simp_all
  · refine .inl ⟨hk, ?_⟩
    simp only [wrapCheck, (keyLengthLegal_eq_false_iff _).mpr hk] at h
    simp at h; exact h.symm

theorem unwrapCheck_eq_some {klen : Byte} {len : Nat} {e : ErrCode} (h : unwrapCheck P klen len = some e) :
    (¬ LegalKeyLength klen.toNat ∧ e = .invalidKeyLength) ∨
    (LegalKeyLength klen.toNat ∧ e = .invalidWrappedLength) := by
  by_cases hk : LegalKeyLength klen.toNat
  · refine .inr ⟨hk, ?_⟩
    simp only [unwrapCheck, (keyLengthLegal_iff _).mpr hk] at h
    split_ifs at h <;> first | (injection h with h; exact h.symm) | simp_all
  · refine .inl ⟨hk, ?_⟩
    simp only [unwrapCheck, (keyLengthLegal_eq_false_iff _).mpr hk] at h
    simp at h; exact h.symm

theorem wrapPadCheck_eq_some {klen : Byte} {m : Nat} {e : ErrCode} (h : wrapPadCheck P klen m = some e) :
    (¬ LegalKeyLength klen.toNat ∧ e = .invalidKeyLength) ∨
    (LegalKeyLength klen.toNat ∧ e = .invalidPlaintextLength) := by
  by_cases hk : LegalKeyLength klen.toNat
  · refine .inr ⟨hk, ?_⟩
    simp only [wrapPadCheck, (keyLengthLegal_iff _).mpr hk] at h
    split_ifs at h <;> first | (injection h with h; exact h.symm) | simp_all
  · refine .inl ⟨hk, ?_⟩
    simp only [wrapPadCheck, (keyLengthLegal_eq_false_iff _).mpr hk] at h
    simp at h; exact h.symm

theorem unwrapPadCheck_eq_some {klen : Byte} {len : Nat} {e : ErrCode} (h : unwrapPadCheck P klen len = some e) :
    (¬ LegalKeyLength klen.toNat ∧ e = .invalidKeyLength) ∨
    (LegalKeyLength klen.toNat ∧ e = .invalidWrappedLength) := by
  by_cases hk : LegalKeyLength klen.toNat
  · refine .inr ⟨hk, ?_⟩
    simp only [unwrapPadCheck, (keyLengthLegal_iff _).mpr hk] at h
    split_ifs at h <;> first | (injection h with h; exact h.symm) | simp_all
  · refine .inl ⟨hk, ?_⟩
    simp only [unwrapPadCheck, (keyLengthLegal_eq_false_iff _).mpr hk] at h
    simp at h; exact h.symm

/-! The command in flight of a state that meets the invariant. -/

/-- The snapshot equals the live registers (10_state.md R33). -/
theorem snapshot_live (hi : s.Inv P) (hp : s.phase = .busy sn left) :
    sn.klen = s.kekLen ∧ sn.key = s.key ∧ sn.iv = s.iv ∧ sn.length = s.inLen.toNat ∧
      sn.data = s.ibufBytes P (min s.inLen.toNat P.bufBytes) := by
  obtain ⟨_, _, _, h⟩ := hi.busy sn left hp
  rw [h]; exact ⟨rfl, rfl, rfl, rfl, rfl⟩

/-- The cipher key of a legal KEK_LEN has that length. -/
theorem length_key (hk : LegalKeyLength s.kekLen.toNat) : LegalKeyLength s.key.length := by
  simp only [State.key, List.length_take, length_kekBytes]
  rcases hk with h | h | h <;> simp [h, LegalKeyLength]

/-- The first bytes of IBUF[0 : n]. -/
theorem take_ibufBytes {m n : Nat} (h : m ≤ n) : (s.ibufBytes P n).take m = s.ibufBytes P m := by
  simp [State.ibufBytes, ← List.map_take, List.take_range, Nat.min_eq_left h]

/-- COMPLETE of a success, in the terms claims use. -/
theorem commits_complete {r : Result} (hi : s.Inv P) (he : r.err = .none) : s.Commits (complete P r s) r.out := by
  have hob : Memory.wf (some 0) s.obuf := hi.obufForm.1
  refine ⟨?_, by simp, ?_, ?_, ?_, ?_, ?_⟩
  · simp [State.statusWord, State.isBusy, he, ErrCode.code]
  · rw [complete_success he]; exact obufBytes_commitSuccess (P := P) hob r.out
  · intro q hq
    rw [complete_success he]
    have o := obufAt_commitSuccess (P := P) hob r.out q
    rw [if_neg (by omega)] at o
    exact o
  · intro h64; rw [complete_success he]; exact outLen_commitSuccess (P := P) (s := s) h64
  · rw [complete_success he]; rfl
  · rw [complete_success he]; rfl

/-- COMPLETE of a failure, in the terms claims use. -/
theorem fails_complete {r : Result} {c : Nat} (hi : s.Inv P) (hp : s.phase = .busy sn left) (he : r.err ≠ .none)
    (hc : r.err.code.toNat = c) : s.Fails (complete P r s) c := by
  obtain ⟨_, _, b, _⟩ := hi.busy sn left hp
  subst hc
  refine ⟨?_, by simp, ?_, ?_⟩
  · rw [complete_failure he]
    simp only [State.statusWord, State.isBusy]
    cases h : r.err <;>
      first
      | exact absurd h he
      | simp [ErrCode.code]
  · rw [complete_failure he]; exact ⟨b.outLenLo, b.outLenHi, b.obuf⟩
  · rw [complete_failure he]

/-! The AIV (41_padded_keywrap.md R130). -/

theorem aivOf_head (m : Nat) : (aivOf m).extractLsb' 32 32 = 0xA65959A6 := by
  apply BitVec.eq_of_getLsbD_eq
  intro i hi
  rw [BitVec.getLsbD_extractLsb', aivOf]
  have := BitVec.getLsbD_append (x := aivPrefix) (y := BitVec.ofNat 32 m) (i := 32 + i)
  rw [if_neg (by omega), show 32 + i - 32 = i by omega] at this
  simp only [hi, decide_true, Bool.true_and]
  exact this

theorem aivOf_mli (m : Nat) (h : m < 2 ^ 32) : ((aivOf m).extractLsb' 0 32).toNat = m := by
  have : (aivOf m).extractLsb' 0 32 = BitVec.ofNat 32 m := by
    apply BitVec.eq_of_getLsbD_eq
    intro i hi
    rw [BitVec.getLsbD_extractLsb', aivOf, Nat.zero_add]
    have := BitVec.getLsbD_append (x := aivPrefix) (y := BitVec.ofNat 32 m) (i := i)
    rw [if_pos hi] at this
    simp only [hi, decide_true, Bool.true_and]
    exact this
  rw [this, BitVec.toNat_ofNat, Nat.mod_eq_of_lt h]

/-! The host program notation (30_encoding.md R76) on an IDLE engine. -/

/-- `WR` performs the register write and answers OK. -/
theorem serve_hostWr (r : Reg) (v : Word) (hs : s.phase = .idle) : serve P (hostWr r v) s =
    { regWrite P r v s with answers := ⟨.ok, none⟩ :: (regWrite P r v s).answers } := by
  have ha : accessOk P .reg r.offset 4 = true := by
    rw [accessOk_reg_iff]
    cases r with
    | kekW w => simp [Reg.offset]; omega
    | _ => simp [Reg.offset]
  simp [serve, hostWr, serveBus, ha, isBusy_eq_false_iff.mpr hs, busWrite, regAt_offset, State.answer]

/-- `WRB` performs the buffer write and answers OK. -/
theorem serve_hostWrb {q : Nat} (b : Byte) (hs : s.phase = .idle) (hq : q < P.bufBytes) : serve P (hostWrb q b) s =
    { s with ibuf := Memory.write none s.ibuf q b, answers := ⟨.ok, none⟩ :: s.answers } := by
  have ha : accessOk P .ibuf q 1 = true := (accessOk_buffer_iff (by decide)).mpr ⟨hq, rfl⟩
  simp [serve, hostWrb, serveBus, ha, isBusy_eq_false_iff.mpr hs, busWrite, Space.blank, State.answer]

/-! The invariant. -/

/-- The invariant says nothing of the host's own fields. -/
theorem inv_congr {t : State} (hi : s.Inv P) (h : s.SameEngine t) : t.Inv P := by
  rw [h]
  exact ⟨hi.ibufForm, hi.obufForm,
    fun sn left hp => by
      obtain ⟨a, b, c, d⟩ := hi.busy sn left hp
      exact ⟨a, b, ⟨c.1, c.2, c.3⟩, d⟩,
    fun hd => ⟨(hi.notDone hd).1, ⟨(hi.notDone hd).2.1, (hi.notDone hd).2.2, (hi.notDone hd).2.3⟩⟩,
    fun he => ⟨(hi.failed he).1, (hi.failed he).2, (hi.failed he).3⟩, hi.beyond⟩

/-- ACCEPT gives a state that meets the invariant, if the input buffer is in form. -/
theorem inv_acceptIn (w : Word) (n : Nat)
    (hm : Memory.wf Space.ibuf.blank s.ibuf ∧ Memory.within P.bufBytes s.ibuf) : (acceptIn P w n s).Inv P := by
  refine ⟨hm, ⟨⟨by simp, by simp⟩, by simp⟩, ?_, ?_, ?_, ?_⟩
  · intro sn left h
    simp only [acceptIn_phase, Phase.busy.injEq] at h
    exact ⟨rfl, rfl, ⟨rfl, rfl, rfl⟩, by rw [← h.1]; rfl⟩
  · intro _; exact ⟨rfl, rfl, rfl, rfl⟩
  · intro h; exact absurd rfl h
  · intro _ q _; rfl

end Sys2Proof.Machine
end

