-- ==== Sys2Proof/Laws/Step.lean ====
section
/-! SUPPORT. The step: which agent moves (42_host_commands.md R163, R165), and runs of the host's `Core`. -/

namespace Sys2Proof.Machine

variable {P : Params} {run : Instr → State → Host.Outcome State Fault Refusal} {s t : State}

theorem stepWith_idle (h : s.phase = .idle) : stepWith P run s = .next (hostTurn P s) := by simp [stepWith, h]

theorem stepWith_waiting {sn : Snapshot} {left : Nat} (h : s.phase = .busy sn (left + 1)) :
    stepWith P run s = .next (hostTurn P { s with phase := .busy sn left }) := by simp [stepWith, h]

theorem stepWith_due {sn : Snapshot} (h : s.phase = .busy sn 0) : stepWith P run s = run (decode sn.word) s := by
  simp [stepWith, h]

/-- A run of one step more, after a step that answered a next state. -/
theorem core_run_succ {n : Nat} (h : step s = .next t) :
    Host.Core.run Sys2Proof.core (n + 1) s = Host.Core.run Sys2Proof.core n t := by
  have h' : Sys2Proof.core.step s = .next t := h
  exact (Host.Core.run.eq_2 Sys2Proof.core s n).trans (by rw [h'])

end Sys2Proof.Machine
end

