-- ==== Sys2Proof/Tests/Slice0.lean ====
section
/-! SUPPORT. The model's own tests. Expected values come from the spec's encodings (30_encoding.md) and its vectors
(95_test_vectors.md), never from a run of the model; and, for every statement with hypotheses, a witness that meets
them. The toy ciphers are those of 95_test_vectors.md section 2.3; AES is FIPS 197. -/

namespace Sys2Proof.Tests

-- One kernel evaluation at a time.
set_option Elab.async false

open Sys2Proof.Machine

/-! Well-formedness (30_encoding.md R73, R74): each legal word is refused as an illegal command. -/

theorem test_wf_refuses_legal_words_as_illegal :
    (Instr.illegal 0x00000001).wf = false ∧ (Instr.illegal 0x00000011).wf = false ∧
    (Instr.illegal 0x00000002).wf = false ∧ (Instr.illegal 0x00000012).wf = false ∧
    (Instr.illegal 0x00000003).wf = false ∧ (Instr.illegal 0x00000004).wf = false := by decide

theorem test_wf_accepts_every_constructor :
    (Instr.wrap true).wf = true ∧ (Instr.unwrap false).wf = true ∧ Instr.wrapPad.wf = true ∧
    Instr.unwrapPad.wf = true ∧ (Instr.illegal 0x00000013).wf = true := by decide

/-! Decoding: words written out bit by bit from R70 and R71, and the table of 95_test_vectors.md section 2.6. -/

theorem test_decode_wrap :
    decodeTableWord 32 0b00000000000000000000000000000001 = some (.wrap false) ∧
    decodeTableWord 32 0b00000000000000000000000000010001 = some (.wrap true) := by decide

theorem test_decode_unwrap :
    decodeTableWord 32 0b00000000000000000000000000000010 = some (.unwrap false) ∧
    decodeTableWord 32 0b00000000000000000000000000010010 = some (.unwrap true) := by decide

theorem test_decode_wrapPad : decodeTableWord 32 0b00000000000000000000000000000011 = some .wrapPad := by decide

theorem test_decode_unwrapPad : decodeTableWord 32 0b00000000000000000000000000000100 = some .unwrapPad := by decide

theorem test_decode_illegal :
    decodeTableWord 32 0b00000000000000000000000000000000 = some (.illegal 0x00000000) ∧
    decodeTableWord 32 0b00000000000000000000000000000101 = some (.illegal 0x00000005) ∧
    decodeTableWord 32 0b00000000000000000000000000010100 = some (.illegal 0x00000014) ∧
    decodeTableWord 32 0b00000000000000000000000000100001 = some (.illegal 0x00000021) ∧
    decodeTableWord 32 0b11111111111111111111111111111111 = some (.illegal 0xFFFFFFFF) := by decide

theorem test_decode_rejects_longer_patterns :
    decodeBits 64 1 = .error .longerThanOneWord ∧ decodeBits 32 (2 ^ 32) = .error .bitAboveWord := ⟨rfl, rfl⟩

/-! Toy configurations and small states. -/

/-- A configuration with a cipher that ignores its key and is its own inverse, zero latency and the given IBUF draws. -/
def toy (sbMax : Nat) (f : Block → Block) (draw : Nat → Nat → Byte) : Params where
  sbMax := sbMax
  enc := fun _ => f
  dec := fun _ => f
  latency := fun _ => 0
  ibufDraw := draw
  outLenHiFree := fun _ => 0

/-- SWAP (95_test_vectors.md section 2.3). -/
def swap (x : Block) : Block := blockPair (lsb64 x) (msb64 x)

/-- A draw that shows where a model would read an unwritten cell. -/
def noise (_ q : Nat) : Byte := BitVec.ofNat 8 (q + 0x5A)

theorem toy_law (sbMax : Nat) (f : Block → Block) (draw : Nat → Nat → Byte) (h : ∀ x, f (f x) = x) :
    (toy sbMax f draw).CipherLaw := fun _ _ x => ⟨h x, h x⟩

theorem swap_swap (x : Block) : swap (swap x) = x := by simp [swap]

/-- The bytes of a big-endian hexadecimal literal. -/
def hex (n v : Nat) : List Byte := beBytes n v

/-- The engine after the boot order of 70_reset_and_hazards.md R244, from reset, with the command in flight. -/
def booted (P : Params) (k v d : List Byte) (i : Instr) : State :=
  serveAll P (setKek k ++ setIv v ++ loadIn d ++ runCommand i) State.reset

/-- What a step shows: STATUS, OUT_LEN and the first `n` bytes of OBUF. -/
def shows (n : Nat) : Host.Outcome State Fault Refusal → Option (Word × BitVec 64 × List Byte)
  | .next t => some (t.statusWord, t.outLen, t.obufBytes n)
  | .fault _ => none
  | .refused _ => none

/-- K16 of 95_test_vectors.md. -/
def k16 : List Byte := hex 16 0x000102030405060708090A0B0C0D0E0F

/-! One step of each command. -/

/-- 95_test_vectors.md section 2.3, SWAP. -/
theorem test_wrap_swap :
    shows 24 (execIn (toy 1024 swap noise) (.wrap false)
      (booted (toy 1024 swap noise) k16 (hex 8 0) (hex 16 0x00000000000000010000000000000002) (.wrap false))) =
    some (0x00000002, 24, hex 24 0xA6A6A6A6A6A6A6A600000000000000090000000000000006) := by decide +kernel

/-- 95_test_vectors.md section 2.3, IDENT, n = 3. -/
theorem test_wrap_ident :
    shows 32 (execIn (toy 1024 id noise) (.wrap false)
      (booted (toy 1024 id noise) k16 (hex 8 0)
        (hex 24 0x000000000000000100000000000000020000000000000003) (.wrap false))) =
    some (0x00000002, 32, hex 32 0xA6A6A6A6A6A6A6B5000000000000000100000000000000020000000000000003) := by
  decide +kernel

/-- 95_test_vectors.md section 2.3, SWAP. -/
theorem test_unwrap_swap :
    shows 16 (execIn (toy 1024 swap noise) (.unwrap false)
      (booted (toy 1024 swap noise) k16 (hex 8 0) (hex 24 0xA6A6A6A6A6A6A6A600000000000000090000000000000006)
        (.unwrap false))) =
    some (0x00000002, 16, hex 16 0x00000000000000010000000000000002) := by decide +kernel

/-- 95_test_vectors.md section 2.3 (the m = 9 output), 41_padded_keywrap.md R142: the AIV as IV, padding returned. -/
theorem test_unwrap_of_padded_with_aiv :
    shows 16 (execIn (toy 1024 swap noise) (.unwrap true)
      (booted (toy 1024 swap noise) k16 (hex 8 0xA65959A600000009)
        (hex 24 0xA65959A60000000901020304050607000900000000000004) (.unwrap true))) =
    some (0x00000002, 16, hex 16 0x01020304050607080900000000000000) := by decide +kernel

/-- 95_test_vectors.md section 2.3, the shortcut with m = 1. -/
theorem test_wrapPad_swap_short :
    shows 16 (execIn (toy 1024 swap noise) .wrapPad
      (booted (toy 1024 swap noise) k16 (hex 8 0) (hex 1 0xFF) .wrapPad)) =
    some (0x00000002, 16, hex 16 0xFF00000000000000A65959A600000001) := by decide +kernel

/-- 95_test_vectors.md section 2.3, m = 9. -/
theorem test_wrapPad_swap_long :
    shows 24 (execIn (toy 1024 swap noise) .wrapPad
      (booted (toy 1024 swap noise) k16 (hex 8 0) (hex 9 0x010203040506070809) .wrapPad)) =
    some (0x00000002, 24, hex 24 0xA65959A60000000901020304050607000900000000000004) := by decide +kernel

/-- 95_test_vectors.md section 2.3, the inverse of m = 9. -/
theorem test_unwrapPad_swap_long :
    shows 9 (execIn (toy 1024 swap noise) .unwrapPad
      (booted (toy 1024 swap noise) k16 (hex 8 0) (hex 24 0xA65959A60000000901020304050607000900000000000004)
        .unwrapPad)) =
    some (0x00000002, 9, hex 9 0x010203040506070809) := by decide +kernel

/-- 95_test_vectors.md section 2.5, short, MLI = 1 with a nonzero last padding byte, under SWAP. -/
theorem test_unwrapPad_nonzero_padding :
    shows 8 (execIn (toy 1024 swap noise) .unwrapPad
      (booted (toy 1024 swap noise) k16 (hex 8 0) (hex 16 0xAB00000000000001A65959A600000001) .unwrapPad)) =
    some (0x00000402, 0, hex 8 0) := by decide +kernel

/-- 95_test_vectors.md section 2.5: AIVCHECK of AIV' = A65959A600000008 on 16 bytes fails, of ...10 passes. -/
theorem test_aivCheck_ranges :
    aivCheck 0xA65959A600000008 (hex 16 0x01020304050607080000000000000000) = none ∧
    aivCheck 0xA65959A600000011 (hex 16 0x0102030405060708090A0B0C0D0E0F10) = none ∧
    aivCheck 0xA65959A600000010 (hex 16 0x0102030405060708090A0B0C0D0E0F10) = some 16 ∧
    aivCheck 0xA65959A600000000 (hex 8 0) = none ∧
    aivCheck 0xA65959A600000001 (hex 8 0xAB00000000000000) = some 1 := by decide +kernel

/-- 95_test_vectors.md section 2.6: STATUS after each word with KEK_LEN = 0, the reset value, in this machine. -/
theorem test_reset_status_after_legal_word :
    shows 0 (step (State.reset.withFetchWord 32 0x00000001)) = some (0x00000102, 0, []) ∧
    shows 0 (step (State.reset.withFetchWord 32 0x00000012)) = some (0x00000102, 0, []) ∧
    shows 0 (step (State.reset.withFetchWord 32 0x00000003)) = some (0x00000102, 0, []) ∧
    shows 0 (step (State.reset.withFetchWord 32 0x00000004)) = some (0x00000102, 0, []) := ⟨rfl, rfl, rfl, rfl⟩

/-- 95_test_vectors.md section 2.6. -/
theorem test_reset_status_after_illegal_word :
    shows 0 (step (State.reset.withFetchWord 32 0x00000013)) = some (0x00000502, 0, []) ∧
    shows 0 (step (State.reset.withFetchWord 32 0xFFFFFFFF)) = some (0x00000502, 0, []) := ⟨rfl, rfl⟩

/-! The bus: 95_test_vectors.md section 2.7, from reset. -/

/-- The answers of a list of transactions from reset, oldest first. -/
def answersOf (ts : List Transaction) : List Answer :=
  (serveAll (toy 2 swap noise) (ts.map .bus) State.reset).answers.reverse

theorem test_bus_registers :
    answersOf [.memRead .reg 0x04 4, .memWrite .reg 0x08 4 0x12345618, .memRead .reg 0x08 4,
      .memWrite .reg 0x40 4 0x00010203, .memRead .reg 0x40 4, .memWrite .reg 0x04 4 0xFFFFFFFF,
      .memWrite .reg 0x20 4 5, .memRead .reg 0x20 4, .memRead .reg 0x0C 4] =
    [⟨.ok, some 0⟩, ⟨.ok, none⟩, ⟨.ok, some 0x00000018⟩, ⟨.ok, none⟩, ⟨.ok, some 0⟩, ⟨.ok, none⟩, ⟨.ok, none⟩,
      ⟨.ok, some 0⟩, ⟨.ok, some 0⟩] := by decide +kernel

theorem test_bus_errors :
    answersOf [.memRead .reg 0x02 4, .memRead .reg 0x80 4, .memRead .reg 0x04 1, .memWrite .ibuf 24 1 0,
      .memWrite .obuf 0 1 0x55, .memRead .obuf 0 1, .memWrite .ibuf 23 1 0x77, .memRead .ibuf 23 1] =
    [⟨.busErr, some 0⟩, ⟨.busErr, some 0⟩, ⟨.busErr, some 0⟩, ⟨.busErr, none⟩, ⟨.ok, none⟩, ⟨.ok, some 0⟩,
      ⟨.ok, none⟩, ⟨.ok, some 0x77⟩] := by decide +kernel

theorem test_setIv_reads_back :
    (serveAll (toy 2 swap noise) (setIv (hex 8 0x0123456789ABCDEF) ++ [hostRd .ivHi, hostRd .ivLo])
      State.reset).answers.take 2 = [⟨.ok, some 0x89ABCDEF⟩, ⟨.ok, some 0x01234567⟩] := by decide +kernel

/-! AES (FIPS 197), and the source's vectors under it. -/

/-- The S-box, entry b at bits 8b+7 .. 8b. -/
def sbox : Nat :=
  0xc072a49cafa2d4adf04759fa7dc982ca76abd7fe2b670130c56f6bf27b777c63 +
  0x75b227ebe28012079a059618c323c7041531d871f1e5a534ccf73f362693fdb7 * 2 ^ 256 +
  0xcf584c4a39becb6a5bb1fc20ed00d153842fe329b3d63b52a05a6e1b1a2c8309 * 2 ^ 512 +
  0xd2f3ff1021dab6bcf5389d928f40a351a89f3c507f02f94585334d43fbaaefd0 * 2 ^ 768 +
  0xdb0b5ede14b8ee4688902a22dc4f816073195d643d7ea7c41744975fec130ccd * 2 ^ 1024 +
  0x08ae7a65eaf4566ca94ed58d6d37c8e779e4959162acd3c25c2406490a3a32e0 * 2 ^ 1280 +
  0x9e1dc186b95735610ef6034866b53e708a8bbd4b1f74dde8c6b4a61c2e2578ba * 2 ^ 1536 +
  0x16bb54b00f2d99416842e6bf0d89a18cdf2855cee9871e9b948ed9691198f8e1 * 2 ^ 1792

def sub (b : Nat) : Nat := sbox / 2 ^ (8 * b) % 256

def xtime (b : Nat) : Nat := if b < 128 then 2 * b else (2 * b) ^^^ 0x11B

def xorList (a b : List Nat) : List Nat := List.zipWith (· ^^^ ·) a b

def subBytes (s : List Nat) : List Nat := s.map sub

def shiftRows (s : List Nat) : List Nat := (List.range 16).map fun i => s.getD (5 * i % 16) 0

def mixColumn : List Nat → List Nat
  | [a, b, c, d] =>
    [xtime a ^^^ xtime b ^^^ b ^^^ c ^^^ d, a ^^^ xtime b ^^^ xtime c ^^^ c ^^^ d,
      a ^^^ b ^^^ xtime c ^^^ xtime d ^^^ d, xtime a ^^^ a ^^^ b ^^^ c ^^^ xtime d]
  | s => s

def mixColumns (s : List Nat) : List Nat :=
  mixColumn (s.take 4) ++ mixColumn ((s.drop 4).take 4) ++ mixColumn ((s.drop 8).take 4) ++ mixColumn (s.drop 12)

/-- The key schedule of a 16- or 24-byte key, newest word first. -/
def schedule (nk : Nat) : Nat → Nat → Nat → List (List Nat) → List (List Nat)
  | 0, _, _, ws => ws
  | fuel + 1, i, rcon, ws =>
    let prev := ws.getD 0 []
    let back := ws.getD (nk - 1) []
    if i % nk = 0 then
      let g := xorList (subBytes (prev.drop 1 ++ prev.take 1)) [rcon, 0, 0, 0]
      schedule nk fuel (i + 1) (xtime rcon) (xorList back g :: ws)
    else schedule nk fuel (i + 1) rcon (xorList back prev :: ws)

def roundKeys (k : List Nat) : List (List Nat) :=
  let nk := k.length / 4
  let ws := (schedule nk (4 * (nk + 7) - nk) nk 1
    ((List.range nk).map fun i => (k.drop (4 * i)).take 4).reverse).reverse
  (List.range (nk + 7)).map fun r => ((ws.drop (4 * r)).take 4).flatten

def aesRounds : List (List Nat) → List Nat → List Nat
  | [], s => s
  | [rk], s => xorList (shiftRows (subBytes s)) rk
  | rk :: rks, s => aesRounds rks (xorList (mixColumns (shiftRows (subBytes s))) rk)

/-- AES-128 and AES-192 encryption. -/
def aesEnc (k : List Byte) (x : Block) : Block :=
  let rks := roundKeys (k.map BitVec.toNat)
  let s := xorList ((blockBytes x).map BitVec.toNat) (rks.getD 0 [])
  blockOf ((aesRounds (rks.drop 1) s).map (BitVec.ofNat 8))

/-- The reference configuration of 00_scope.md R9 (its DEC is not used by these tests). -/
def aesParams : Params := { toy 1024 id noise with enc := aesEnc }

/-- FIPS 197 appendix C.1. -/
theorem test_aes_fips197 :
    aesEnc k16 0x00112233445566778899AABBCCDDEEFF = 0x69C4E0D86A7B0430D8CDB78070B4C55A := by decide +kernel

/-- 95_test_vectors.md section 1.1, the source's byte-exact vector (40_keywrap.md R109). -/
theorem test_wrap_aes_vector_4_1 :
    shows 24 (execIn aesParams (.wrap false)
      (booted aesParams k16 (hex 8 0) (hex 16 0x00112233445566778899AABBCCDDEEFF) (.wrap false))) =
    some (0x00000002, 24, hex 24 0x1FA68B0A8112B447AEF34BD8FB5A7B829D3E862371D2CFE5) := by decide +kernel

/-- 95_test_vectors.md section 1.3, the RFC 5649 20-byte key (41_padded_keywrap.md R135). -/
theorem test_wrapPad_aes_20_bytes :
    shows 32 (execIn aesParams .wrapPad
      (booted aesParams (hex 24 0x5840DF6E29B02AF1AB493B705BF16EA1AE8338F4DCC176A8) (hex 8 0)
        (hex 20 0xC37B7E6492584340BED12207808941155068F738) .wrapPad)) =
    some (0x00000002, 32, hex 32 0x138BDEAA9B8FA7FC61F97742E72248EE5AE6AE5360D1AE6A5F54F373FA543B6A) := by
  decide +kernel

/-! Witnesses: for every statement with hypotheses, states and operands that meet them together, and one for each
clause at a boundary of its range. `small` is the configuration with SB_MAX = 2 (BUF_BYTES = 24) and SWAP;
`ident d0 d1` has IDENT and IBUF cells that are the bytes `d0` after reset and `d1` after a second reset. -/

def small : Params := toy 2 swap noise

def ident (d0 d1 : List Byte) : Params :=
  toy 2 id fun r q => if r = 0 then d0.getD q 0 else d1.getD q 0

/-- IDLE with KEK_LEN and IN_LEN set, every other field as after reset but the draw counter. -/
def prepared (r : Nat) (klen : Byte) (len : Word) : State :=
  { State.reset with kekLen := klen, inLenLo := len, resets := r }

/-- The command `i` in flight on those operands. -/
def issued (P : Params) (i : Instr) (klen : Byte) (len : Word) : State :=
  acceptIn P (encode i) 0 (prepared 0 klen len)

theorem witness_legal : small.Legal ∧ (ident [] []).Legal := by decide

theorem witness_cipherLaw : small.CipherLaw ∧ ∀ d0 d1, (ident d0 d1).CipherLaw :=
  ⟨toy_law 2 swap noise swap_swap, fun _ _ => toy_law 2 id _ fun _ => rfl⟩

theorem issued_inv (P : Params) (i : Instr) (klen : Byte) (len : Word) : (issued P i klen len).Inv P :=
  inv_acceptIn _ _ ⟨⟨List.Pairwise.nil, by simp [prepared, State.reset]⟩, by simp [prepared, State.reset]⟩

/-- An IDLE state that meets the invariant (IbufWriteSetsOneCell, LoadInLoadsInput, BootOrderIssuesCommand). -/
theorem prepared_inv (P : Params) (klen : Byte) (len : Word) : (prepared 0 klen len).Inv P where
  ibufForm := ⟨⟨List.Pairwise.nil, fun _ h => by cases h⟩, fun _ h => by cases h⟩
  obufForm := ⟨⟨List.Pairwise.nil, fun _ h => by cases h⟩, fun _ h => by cases h⟩
  busy := fun _ _ h => by cases h
  notDone := fun _ => ⟨rfl, rfl, rfl, rfl⟩
  failed := fun h => absurd rfl h
  beyond := fun _ _ _ => rfl

theorem witness_wf_instructions :
    (Instr.wrap true).wf = true ∧ (Instr.unwrap true).wf = true ∧ Instr.wrapPad.wf = true ∧
    Instr.unwrapPad.wf = true ∧ (Instr.illegal 0).wf = true ∧ legal 0 = false ∧ legal 0xFFFFFFFF = false := by decide

/-- A BUSY state with one host turn left and a reset pending. -/
def resetPending : State := { acceptIn small 3 1 (prepared 0 16 9) with inbox := [.rst] }

/-- ResetEventAbortsCommand: in BUSY, and in IDLE. -/
theorem witness_reset_event :
    resetPending.inbox = .rst :: [] ∧ (∀ sn, resetPending.phase ≠ .busy sn 0) ∧
    (∀ sn, ({ State.reset with inbox := [.rst] } : State).phase ≠ .busy sn 0) := by
  refine ⟨rfl, fun sn h => ?_, fun sn h => by cases h⟩
  have e : resetPending.phase = .busy (capture small 3 (prepared 0 16 9)) 1 := rfl
  rw [e] at h
  injection h with _ h
  cases h

/-- BusErrorsAsListed: both sides of every bound, at SB_MAX = 2. -/
theorem witness_bus_errors :
    accessOk small .reg 0x7C 4 = true ∧ accessOk small .reg 0x80 4 = false ∧ accessOk small .reg 0x7D 4 = false ∧
    accessOk small .reg 0x7C 1 = false ∧ accessOk small .ibuf 23 1 = true ∧ accessOk small .ibuf 24 1 = false ∧
    accessOk small .obuf 23 1 = true ∧ accessOk small .obuf 24 1 = false ∧ accessOk small .obuf 0 4 = false := by
  decide

/-- IbufWriteSetsOneCell and ObufReadOnly, at the last cell. -/
theorem witness_buffer_write :
    (prepared 0 0 0).Inv small ∧ (prepared 0 0 0).phase = .idle ∧ 23 < small.bufBytes :=
  ⟨prepared_inv .., rfl, by decide⟩

/-- RegisterReadsAsMapped and RegisterWritesAsMapped: every offset a clause names at a boundary of its range meets the
premises, and no offset lies in two of the write clauses. -/
theorem witness_register_offsets :
    (∀ off ∈ [0x04, 0x08, 0x0C, 0x10, 0x14, 0x18, 0x1C, 0x20, 0x24, 0x28, 0x3C, 0x40, 0x5C, 0x60, 0x7C],
      off % 4 = 0 ∧ off ≤ 0x7C ∧ off ≠ 0x00) ∧
    0x40 = 0x40 + 4 * (0 : Fin 8).val ∧ 0x5C = 0x40 + 4 * (7 : Fin 8).val ∧
    (∀ x : Fin 8, ¬ (0x20 ≤ 0x40 + 4 * x.val ∧ 0x40 + 4 * x.val ≤ 0x3C) ∧ ¬ 0x60 ≤ 0x40 + 4 * x.val) := by decide

/-- BusyWritesIgnored and StatusShowsOnlyThese: a BUSY state under the invariant, and a write the bus accepts. -/
theorem witness_busy :
    (issued small .wrapPad 16 9).Inv small ∧ (issued small .wrapPad 16 9).isBusy = true ∧
    accessOk small .reg 0x08 4 = true ∧ accessOk small .ibuf 0 1 = true :=
  ⟨issued_inv .., rfl, by decide, by decide⟩

/-- KeyNeverReadBack and ResultsPersist: host events that issue no command and no reset. -/
theorem witness_host_events :
    (∀ e ∈ [hostRd (.kekW 0), hostWr .kekLen 16, hostWrb 0 1, hostRdb .obuf 0],
      e ≠ .rst ∧ ∀ v, e ≠ .bus (.memWrite .reg 0x00 4 v)) ∧ State.reset.phase = .idle := by
  simp [hostRd, hostWr, hostWrb, hostRdb, Reg.offset, State.reset]

/-- SetKekLoadsKey, LoadInLoadsInput and BootOrderIssuesCommand: a full input buffer and a 32-byte key. -/
theorem witness_boot :
    State.reset.phase = .idle ∧ (prepared 0 0 0).Inv small ∧ LegalKeyLength (hex 32 1).length ∧
    (hex 8 2).length = 8 ∧ (hex 24 3).length ≤ small.bufBytes ∧ (hex 24 3).length < 2 ^ 64 :=
  ⟨rfl, prepared_inv .., by decide, by decide, by decide, by decide⟩

/-- StepRunsDecodedCommand: BUSY with a well-formed command due, BUSY with host turns left, and IDLE. -/
theorem witness_step :
    (∃ sn, (issued Config.params (.illegal 0) 0 0).phase = .busy sn 0 ∧ (Instr.illegal 0).wf = true ∧
      sn.word = encode (.illegal 0)) ∧
    (∃ sn, (acceptIn Config.params 3 1 State.reset).phase = .busy sn (0 + 1)) ∧
    State.reset.phase = .idle ∧ State.reset.inbox = [] :=
  ⟨⟨_, rfl, rfl, rfl⟩, ⟨_, rfl⟩, rfl, rfl⟩

/-- StepKeepsInvariant, for this machine and for a toy one: a state under the invariant whose step answers. -/
theorem witness_step_inv :
    ((issued Config.params .wrapPad 16 9).Inv Config.params ∧ ∃ t, step (issued Config.params .wrapPad 16 9) = .next t) ∧
    ((issued small .wrapPad 16 9).Inv small ∧ ∃ t, stepWith small (execIn small) (issued small .wrapPad 16 9) = .next t) :=
  ⟨⟨issued_inv .., _, rfl⟩, ⟨issued_inv .., _, rfl⟩⟩

/-- EveryCommandCompletes: two host turns before completion, with a STATUS read pending. -/
theorem witness_completes :
    ∃ sn, ({ acceptIn Config.params 3 2 (prepared 0 16 9) with inbox := [hostRd .status] } : State).phase = .busy sn 2 ∧
      ∀ e ∈ ({ acceptIn Config.params 3 2 (prepared 0 16 9) with inbox := [hostRd .status] } : State).inbox.take 2,
        e ≠ .rst :=
  ⟨_, rfl, by simp [hostRd]⟩

/-- WrapSucceeds: the least length in this machine, and the capacity at SB_MAX = 2 with a 32-byte key. -/
theorem witness_wrap :
    ((issued Config.params (.wrap true) 16 16).Inv Config.params ∧
      (issued Config.params (.wrap true) 16 16).isBusy = true ∧
      LegalKeyLength (issued Config.params (.wrap true) 16 16).kekLen.toNat ∧
      (issued Config.params (.wrap true) 16 16).inLen.toNat = 16 ∧ 16 / 8 ≤ Config.params.sbMax) ∧
    ((issued small (.wrap false) 32 16).Inv small ∧ LegalKeyLength (issued small (.wrap false) 32 16).kekLen.toNat ∧
      (issued small (.wrap false) 32 16).inLen.toNat / 8 = small.sbMax) := by
  refine ⟨⟨issued_inv .., rfl, .inl rfl, rfl, ?_⟩, issued_inv .., .inr (.inr rfl), rfl⟩
  show 2 ≤ Config.sbMax
  unfold Config.sbMax
  split <;> omega

/-- WrapChecksInOrder: each clause at a boundary, at SB_MAX = 2. -/
theorem witness_wrap_checks :
    ¬ LegalKeyLength (issued small (.wrap false) 15 16).kekLen.toNat ∧
    (LegalKeyLength (issued small (.wrap false) 24 8).kekLen.toNat ∧
      (issued small (.wrap false) 24 8).inLen.toNat < 16) ∧
    (issued small (.wrap false) 24 20).inLen.toNat % 8 ≠ 0 ∧
    ((issued small (.wrap false) 24 24).inLen.toNat % 8 = 0 ∧
      small.sbMax < (issued small (.wrap false) 24 24).inLen.toNat / 8) := by decide +kernel

/-- UnwrapEndsByIcv: with zero input under IDENT the recovered A is 1 xor ... xor 12 = 0x0C, so both clauses occur:
IV = 0x0C matches, ICV1 does not. -/
theorem witness_unwrap :
    let s := acceptIn (ident [] []) (encode (.unwrap true)) 0 { prepared 0 16 24 with ivLo := 0x0C }
    let w := unwrapTransform (ident [] []) s.key (semiblockOf (s.ibufBytes (ident [] []) 8))
      (semiblocks ((s.ibufBytes (ident [] []) s.inLen.toNat).drop 8))
    s.isBusy = true ∧ LegalKeyLength s.kekLen.toNat ∧ s.inLen.toNat = 24 ∧ 24 / 8 - 1 ≤ (ident [] []).sbMax ∧
    w.a = s.icv true ∧ w.a ≠ s.icv false := by decide +kernel

theorem witness_unwrap_inv :
    (acceptIn (ident [] []) (encode (.unwrap true)) 0 { prepared 0 16 24 with ivLo := 0x0C }).Inv (ident [] []) :=
  inv_acceptIn _ _ ⟨⟨List.Pairwise.nil, by simp [prepared, State.reset]⟩, by simp [prepared, State.reset]⟩

/-- UnwrapChecksInOrder: each clause at a boundary, at SB_MAX = 2. -/
theorem witness_unwrap_checks :
    ¬ LegalKeyLength (issued small (.unwrap false) 33 24).kekLen.toNat ∧
    (LegalKeyLength (issued small (.unwrap false) 16 16).kekLen.toNat ∧
      (issued small (.unwrap false) 16 16).inLen.toNat < 24) ∧
    (issued small (.unwrap false) 16 25).inLen.toNat % 8 ≠ 0 ∧
    ((issued small (.unwrap false) 16 32).inLen.toNat % 8 = 0 ∧
      small.sbMax < (issued small (.unwrap false) 16 32).inLen.toNat / 8 - 1) := by decide +kernel

/-- WrapPadSucceeds: both paths at their ends, at SB_MAX = 2, and m = 1 in this machine. -/
theorem witness_wrapPad :
    ((issued Config.params .wrapPad 16 1).Inv Config.params ∧ (issued Config.params .wrapPad 16 1).inLen.toNat = 1 ∧
      (1 + 7) / 8 ≤ Config.params.sbMax) ∧
    ((issued small .wrapPad 24 8).inLen.toNat = 8 ∧ (8 + 7) / 8 ≤ small.sbMax) ∧
    ((issued small .wrapPad 24 9).inLen.toNat = 9 ∧ (9 + 7) / 8 ≤ small.sbMax) ∧
    ((issued small .wrapPad 24 16).inLen.toNat = 16 ∧ (16 + 7) / 8 ≤ small.sbMax) := by
  refine ⟨⟨issued_inv .., rfl, ?_⟩, ⟨rfl, by decide⟩, ⟨rfl, by decide⟩, ⟨rfl, by decide⟩⟩
  show 1 ≤ Config.sbMax
  unfold Config.sbMax
  split <;> omega

/-- WrapPadChecksInOrder: each clause at a boundary; 2^32 is IN_LEN_HI = 1. -/
theorem witness_wrapPad_checks :
    ¬ LegalKeyLength (issued small .wrapPad 20 7).kekLen.toNat ∧
    (issued small .wrapPad 16 0).inLen.toNat = 0 ∧
    2 ^ 32 - 1 < (acceptIn small 3 0 { prepared 0 16 0 with inLenHi := 1 }).inLen.toNat ∧
    (1 ≤ (issued small .wrapPad 16 17).inLen.toNat ∧ (issued small .wrapPad 16 17).inLen.toNat ≤ 2 ^ 32 - 1 ∧
      small.sbMax < ((issued small .wrapPad 16 17).inLen.toNat + 7) / 8) := by decide +kernel

/-- UnwrapPadEndsByAivCheck: under IDENT the shortcut on the AIV of m = 1 passes, and on zeros fails. -/
theorem witness_unwrapPad_short :
    AivPasses 0xA65959A600000001 (hex 8 0xFF00000000000000) 1 ∧ (∀ m, ¬ AivPasses 0 (hex 8 0) m) ∧
    (let P := ident (hex 16 0xA65959A600000001FF00000000000000) []
     let s := issued P .unwrapPad 16 16
     s.isBusy = true ∧ LegalKeyLength s.kekLen.toNat ∧ s.inLen.toNat = 16 ∧
     (0xA65959A600000001 : Semiblock) = msb64 (P.dec s.key (blockOf (s.ibufBytes P 16))) ∧
     hex 8 0xFF00000000000000 = semiblockBytes (lsb64 (P.dec s.key (blockOf (s.ibufBytes P 16))))) := by
  refine ⟨⟨rfl, rfl, by decide, by decide, by decide, ?_⟩, ?_, by decide +kernel⟩
  · intro q h1 h2
    have : (hex 8 0xFF00000000000000).length = 8 := rfl
    have h3 : q < 8 := by omega
    interval_cases q <;> rfl
  · intro m h
    exact absurd h.head (by decide)

/-- UnwrapPadEndsByAivCheck: the long path at n = 2, with the counters of IDENT (0x0C) taken out of A. -/
theorem witness_unwrapPad_long :
    let P := ident (hex 24 0xA65959A60000000501020304050607080900000000000000) []
    let s := issued P .unwrapPad 32 24
    let u := unwrapTransform P s.key (semiblockOf (s.ibufBytes P 8))
      (semiblocks ((s.ibufBytes P s.inLen.toNat).drop 8))
    s.isBusy = true ∧ LegalKeyLength s.kekLen.toNat ∧ s.inLen.toNat % 8 = 0 ∧ 24 ≤ s.inLen.toNat ∧
    s.inLen.toNat / 8 - 1 = P.sbMax ∧ u.a = 0xA65959A600000009 ∧
    joinSemiblocks u.r = hex 16 0x01020304050607080900000000000000 := by decide +kernel

/-- UnwrapPadChecksInOrder: each clause at a boundary, at SB_MAX = 2. -/
theorem witness_unwrapPad_checks :
    ¬ LegalKeyLength (issued small .unwrapPad 0 16).kekLen.toNat ∧
    ¬ ((issued small .unwrapPad 16 8).inLen.toNat = 16 ∨
      ((issued small .unwrapPad 16 8).inLen.toNat % 8 = 0 ∧ 24 ≤ (issued small .unwrapPad 16 8).inLen.toNat)) ∧
    ((issued small .unwrapPad 16 32).inLen.toNat % 8 = 0 ∧ 24 ≤ (issued small .unwrapPad 16 32).inLen.toNat ∧
      small.sbMax < (issued small .unwrapPad 16 32).inLen.toNat / 8 - 1) := by decide +kernel

/-- IllegalWordCompletes and CommandsWriteOnlyResults, in this machine and in a toy one. -/
theorem witness_illegal :
    ((issued Config.params (.illegal 0x13) 0 0).Inv Config.params ∧
      (issued Config.params (.illegal 0x13) 0 0).isBusy = true ∧
      ∃ t, exec (.illegal 0x13) (issued Config.params (.illegal 0x13) 0 0) = .next t) ∧
    ((issued small (.illegal 0x13) 0 0).Inv small ∧
      ∃ sn t, (issued small (.illegal 0x13) 0 0).phase = .busy sn 0 ∧
        execIn small (.illegal 0x13) (issued small (.illegal 0x13) 0 0) = .next t) :=
  ⟨⟨issued_inv .., rfl, _, rfl⟩, issued_inv .., _, _, rfl, rfl⟩

/-- A snapshot as it stands after acceptance. -/
def snap (P : Params) (w : Word) (klen : Byte) (len : Word) : Snapshot := capture P w (prepared 0 klen len)

/-- ErrorsInPriorityOrder and EagerValidation: every error of every kind occurs. -/
theorem witness_errors :
    legal (snap small 0x13 0 0).word = false ∧ ¬ LegalKeyLength (snap small 1 17 16).klen.toNat ∧
    LegalKeyLength (snap small 1 16 8).klen.toNat ∧ (snap small 1 16 8).kek.length = 32 ∧
    (execResult small (snap small 1 16 8)).err = .invalidPlaintextLength ∧
    (execResult small (snap small 3 16 0)).err = .invalidPlaintextLength ∧
    (execResult small (snap small 2 16 16)).err = .invalidWrappedLength ∧
    (execResult small (snap small 4 16 8)).err = .invalidWrappedLength ∧
    (execResult small (snap small 2 16 24)).err = .integrityCheckFailed ∧
    (execResult small (snap small 4 16 16)).err = .integrityCheckFailed ∧
    (execResult small (snap small 4 16 24)).err = .integrityCheckFailed := by decide +kernel

/-- CipherCallCounts: a command of each operation that passes its checks, on both paths of the padded ones. -/
theorem witness_cipher_calls :
    (snap small 1 16 16).data.length = min (snap small 1 16 16).inlen.toNat small.bufBytes ∧
    (snap small 1 16 64).data.length = min (snap small 1 16 64).inlen.toNat small.bufBytes ∧ small.Legal ∧
    (execResult small (snap small 1 16 16)).err = .none ∧
    (execResult small (snap small 3 16 8)).err = .none ∧ (execResult small (snap small 3 16 9)).err = .none ∧
    opField (snap small 1 16 16).word = 1 ∧ opField (snap small 2 16 24).word = 2 ∧
    opField (snap small 3 16 8).word = 3 ∧ opField (snap small 4 16 16).word = 4 := by decide +kernel

/-- EqualSnapshotsEqualResults: two BUSY states with equal snapshots whose live registers differ. -/
theorem witness_equal_snapshots :
    let s := issued small .wrapPad 16 9
    let s' := { s with ivHi := 5, answers := [⟨.ok, none⟩] }
    (∃ sn, s.phase = .busy sn 0 ∧ s'.phase = .busy sn 0 ∧ (execResult small sn).out.length < 2 ^ 64) ∧
    s.NoResult ∧ s'.NoResult ∧ (∃ t, stepWith small (execIn small) s = .next t) ∧
    ∃ t, stepWith small (execIn small) s' = .next t :=
  ⟨⟨_, rfl, rfl, by decide +kernel⟩, ⟨rfl, rfl, rfl⟩, ⟨rfl, rfl, rfl⟩, ⟨_, rfl⟩, ⟨_, rfl⟩⟩

/-- BytesBeyondInputUnused: two states that differ only in a cell beyond IN_LEN. -/
theorem witness_bytes_beyond :
    let s := prepared 0 16 9
    let s' := { s with ibuf := [(9, 0xEE)] }
    s.phase = .idle ∧ s'.phase = .idle ∧ s'.kekLen = s.kekLen ∧ s'.kek = s.kek ∧ s'.iv = s.iv ∧ s'.inLen = s.inLen ∧
    (∀ q, q < s.inLen.toNat → s'.ibufAt small q = s.ibufAt small q) ∧ s'.ibufAt small 9 ≠ s.ibufAt small 9 := by
  refine ⟨rfl, rfl, rfl, rfl, rfl, rfl, ?_, by decide +kernel⟩
  intro q hq
  have h : (prepared 0 16 9).inLen.toNat = 9 := rfl
  have hq' : ¬ 9 = q := by omega
  simp [State.ibufAt, prepared, State.reset, Memory.find, hq']

/-- IvRegisterUnusedWithoutIvSel. -/
theorem witness_iv : ivSelField (snap small 1 16 16).word = false ∧ ivSelField (snap small 3 16 9).word = false := by
  decide

/-- The transforms' statements: legal keys, SWAP for the law and IDENT for the counters. -/
theorem witness_transforms :
    LegalKeyLength k16.length ∧ small.CipherLaw ∧ ∀ x, (ident [] []).enc k16 x = x :=
  ⟨by decide, witness_cipherLaw.1, fun _ => rfl⟩

/-- AivCheckExact and PaddingAndAivAsSpecified: both ends of the range for n = 2, and m = 1. -/
theorem witness_aivCheck :
    aivCheck 0xA65959A600000009 (hex 16 0x01020304050607080900000000000000) = some 9 ∧
    aivCheck 0xA65959A600000010 (hex 16 0x01020304050607080900000000000000) = some 16 ∧
    (hex 16 0).length = 8 * 2 ∧ 1 ≤ (hex 1 0xFF).length ∧ (hex 1 0xFF).length ≤ 2 ^ 32 - 1 := by decide +kernel

/-- PlainRoundTrip under IDENT: the IBUF after the second reset holds the WRAP's output of the IBUF after the first. -/
theorem witness_plain_round_trip :
    let P := ident (hex 16 0x00000000000000010000000000000002)
      (hex 24 0xA6A6A6A6A6A6A6AA00000000000000010000000000000002)
    let s := issued P (.wrap false) 16 16
    let u := acceptIn P (encode (.unwrap false)) 0 (prepared 1 16 24)
    (∃ t, execIn P (.wrap false) s = .next t ∧ u.ibufBytes P (s.inLen.toNat + 8) = t.obufBytes (s.inLen.toNat + 8)) ∧
    s.isBusy = true ∧ u.isBusy = true ∧ LegalKeyLength s.kekLen.toNat ∧ s.inLen.toNat = 8 * P.sbMax ∧
    u.kekLen = s.kekLen ∧ u.kek = s.kek ∧ u.iv = s.iv ∧ u.inLen.toNat = s.inLen.toNat + 8 :=
  ⟨⟨_, rfl, by decide +kernel⟩, by decide +kernel⟩

/-- PaddedRoundTrip under IDENT: both paths. -/
theorem witness_padded_round_trip :
    (let P := ident (hex 1 0xFF) (hex 16 0xA65959A600000001FF00000000000000)
     let s := issued P .wrapPad 16 1
     let u := acceptIn P (encode .unwrapPad) 0 (prepared 1 16 16)
     ∃ t, execIn P .wrapPad s = .next t ∧ u.inLen = t.outLen ∧
       u.ibufBytes P u.inLen.toNat = t.obufBytes u.inLen.toNat) ∧
    (let P := ident (hex 9 0x010203040506070809) (hex 24 0xA65959A60000000501020304050607080900000000000000)
     let s := issued P .wrapPad 16 9
     let u := acceptIn P (encode .unwrapPad) 0 (prepared 1 16 24)
     ∃ t, execIn P .wrapPad s = .next t ∧ u.inLen = t.outLen ∧
       u.ibufBytes P u.inLen.toNat = t.obufBytes u.inLen.toNat) :=
  ⟨⟨_, rfl, by decide +kernel, by decide +kernel⟩, ⟨_, rfl, by decide +kernel, by decide +kernel⟩⟩

/-- PlainAndPaddedDisjoint: snapshots of both directions, short and long, with the AIV as IV. -/
theorem witness_disjoint :
    let wrapped (i : Instr) (len : Word) (n : Nat) (d : List Byte) : Snapshot :=
      { snap (ident d []) (encode i) 16 n with iv := specAiv len.toNat }
    let short := snap small 3 16 8
    let long := snap small 3 16 9
    let plain := snap small 1 16 16
    LegalKeyLength short.key.length ∧ short.data.length = short.inlen.toNat ∧
    (wrapPadResult small short).err = .none ∧ (wrapPadResult small long).err = .none ∧
    (wrapResult small false plain).err = .none ∧
    (let un := wrapped (.unwrap true) 9 24 (wrapPadResult small long).out
     un.klen = long.klen ∧ un.kek = long.kek ∧ un.inlen.toNat = un.data.length ∧
     un.data = (wrapPadResult small long).out ∧ un.iv = specAiv long.inlen.toNat) ∧
    (let un := wrapped .unwrapPad 16 24 (wrapResult small false plain).out
     un.klen = plain.klen ∧ un.kek = plain.kek ∧ un.inlen.toNat = un.data.length ∧
     un.data = (wrapResult small false plain).out) := by decide +kernel

/-- ResetStateAsSpecified: KEK_LEN = 0 away from the reset state, IDLE with a KEK word write pending, IDLE with a legal
word to accept, and BUSY under the invariant with a legal word in flight; a KEK_LEN write pending while BUSY is in the
premise of the step clause too. -/
theorem witness_kekLen_zero :
    (let s := { prepared 0 0 16 with ivHi := 7, inbox := [hostWr (.kekW 3) 9] }
     s.phase = .idle ∧ s.kekLen = 0 ∧ legal 0x00000011 = true ∧ (∃ t, step s = .next t) ∧
     ∀ v, s.inbox.head? ≠ some (.bus (.memWrite .reg 0x08 4 v))) ∧
    (let s := issued Config.params .unwrapPad 0 16
     s.Inv Config.params ∧ s.kekLen = 0 ∧ ∃ sn, s.phase = .busy sn 0 ∧ legal sn.word = true) ∧
    (let s := { issued Config.params .unwrapPad 0 16 with inbox := [hostWr .kekLen 16] }
     s.kekLen = 0 ∧ s.phase ≠ .idle ∧ ∃ t, step s = .next t) := by
  refine ⟨⟨rfl, rfl, rfl, ⟨_, rfl⟩, ?_⟩, ⟨issued_inv .., rfl, _, rfl, rfl⟩, rfl, ?_, _, rfl⟩
  · intro v h
    simp [hostWr, Reg.offset] at h
  · intro h; cases h

/-- StepRunsDecodedCommand: host turns on a bus transaction and on a reset. -/
theorem witness_host_turn :
    ({ State.reset with inbox := [hostRd .status, .rst] } : State).inbox = .bus (.memRead .reg 0x04 4) :: [.rst] ∧
    resetPending.inbox = .rst :: [] := ⟨rfl, rfl⟩

/-- CommandsWriteOnlyResults: a success of 24 bytes and a failure, under the invariant. -/
theorem witness_frame :
    (let s := issued small .wrapPad 16 9
     s.Inv small ∧ ∃ sn t, s.phase = .busy sn 0 ∧ execIn small .wrapPad s = .next t ∧
       (resultOf small .wrapPad sn).err = .none ∧ (resultOf small .wrapPad sn).out.length = 24) ∧
    (let s := issued small .unwrapPad 16 24
     s.Inv small ∧ ∃ sn t, s.phase = .busy sn 0 ∧ execIn small .unwrapPad s = .next t ∧
       (resultOf small .unwrapPad sn).err ≠ .none) :=
  ⟨⟨issued_inv .., _, _, rfl, rfl, by decide +kernel, by decide +kernel⟩,
    issued_inv .., _, _, rfl, rfl, by decide +kernel⟩

/-- LoopStepsAsSpecified: the first and the last semiblock of n = 2, and the largest counter value. -/
theorem witness_loop_steps :
    (⟨icv1, [1, 2], []⟩ : Work).r[1 - 1]? = some 1 ∧ (⟨icv1, [1, 2], []⟩ : Work).r[2 - 1]? = some 2 ∧
    2 ^ 64 - 1 < 2 ^ 64 := by decide

/-- 95_test_vectors.md section 2.3, SWAP: the first step by hand and the second row of the table. -/
theorem test_wrapBody_swap_rows :
    let w1 := wrapBody small k16 2 0 1 ⟨icv1, [1, 2], []⟩
    (w1.a, w1.r) = (0, [0xA6A6A6A6A6A6A6A6, 2]) ∧
    ((wrapBody small k16 2 0 2 w1).a, (wrapBody small k16 2 0 2 w1).r) = (0, [0xA6A6A6A6A6A6A6A6, 0]) := by
  decide +kernel

end Sys2Proof.Tests
end

section
/-! The scope of the model (00_scope.md R9): the parameters of this machine, and `exec` and `step` under them. -/

namespace Sys2Proof.Machine

/-- Both a drawn value inside R9's range and the reference value 1024 meet R9's bounds. -/
theorem config_params_legal : Config.params.Legal := by
  show 2 ≤ Config.sbMax ∧ 6 * Config.sbMax + 6 < 2 ^ 64
  unfold Config.sbMax
  split
  case isTrue hchoice => exact hchoice
  case isFalse => decide

theorem step_eq_stepWith (s : State) : step s = stepWith Config.params (execIn Config.params) s := by
  rw [step, exec_eq]

/-- Settles O24: R9's bounds hold of either value of SB_MAX, and `exec` agrees with `execIn` on every command. -/
theorem machineIsOneConfiguration : Obligations.MachineIsOneConfiguration :=
  ⟨config_params_legal, exec_eq_execIn, step_eq_stepWith⟩

end Sys2Proof.Machine
end

section
/-! The invariant `State.Inv` is kept by every host event, by COMPLETE and so by every step (10_state.md R23, R30, R31,
R33; 42_host_commands.md R163, R166). -/

namespace Sys2Proof.Machine

variable {P : Params} {s t : State} {sn : Snapshot} {left : Nat}

/-- What the host reads of the last command is the same in both states: DONE, ERR, OUT_LEN and OBUF. -/
structure State.SameResult (s t : State) : Prop where
  done : t.done = s.done
  err : t.err = s.err
  outLenLo : t.outLenLo = s.outLenLo
  outLenHi : t.outLenHi = s.outLenHi
  obuf : t.obuf = s.obuf

theorem State.SameResult.noResult (h : s.SameResult t) (hs : s.NoResult) : t.NoResult :=
  ⟨h.outLenLo.trans hs.outLenLo, h.outLenHi.trans hs.outLenHi, h.obuf.trans hs.obuf⟩

theorem State.SameResult.outLen_eq (h : s.SameResult t) : t.outLen = s.outLen := by
  rw [State.outLen, h.outLenLo, h.outLenHi, State.outLen]

theorem State.SameResult.obufAt_eq (h : s.SameResult t) (q : Nat) : t.obufAt q = s.obufAt q := by
  rw [State.obufAt, h.obuf, State.obufAt]

/-- The invariant carries over to a state that shows the same result, if its IBUF is in form and a command in flight
there is in flight before, with the same live operands. -/
theorem inv_of_sameResult (hi : s.Inv P) (hr : s.SameResult t)
    (hibuf : Memory.wf Space.ibuf.blank t.ibuf ∧ Memory.within P.bufBytes t.ibuf)
    (hbusy : ∀ sn left, t.phase = .busy sn left →
      ∃ left', s.phase = .busy sn left' ∧ capture P sn.word t = capture P sn.word s) : t.Inv P where
  ibufForm := hibuf
  obufForm := hr.obuf ▸ hi.obufForm
  busy sn left hp := by
    obtain ⟨left', hs, hcapture⟩ := hbusy sn left hp
    obtain ⟨hdone, herr, hno, hsn⟩ := hi.busy sn left' hs
    exact ⟨hr.done.trans hdone, hr.err.trans herr, hr.noResult hno, hsn.trans hcapture.symm⟩
  notDone hd := by
    obtain ⟨herr, hno⟩ := hi.notDone (hr.done.symm.trans hd)
    exact ⟨hr.err.trans herr, hr.noResult hno⟩
  failed he := hr.noResult (hi.failed (hr.err ▸ he))
  beyond h64 q hq := by
    rw [hr.outLen_eq] at hq
    rw [hr.obufAt_eq, hi.beyond h64 q hq]

/-- A host turn that passes while BUSY changes only the count of turns left (log 3). -/
theorem inv_wait {left' : Nat} (hi : s.Inv P) (hp : s.phase = .busy sn left) :
    State.Inv P { s with phase := .busy sn left' } := by
  refine inv_of_sameResult hi ⟨rfl, rfl, rfl, rfl, rfl⟩ hi.ibufForm fun sn' _ h => ?_
  obtain ⟨rfl, -⟩ := Phase.busy.inj h
  exact ⟨left, hp, rfl⟩

theorem inv_of_sameResult_idle (hi : s.Inv P) (hr : s.SameResult t) (ht : t.phase = .idle)
    (hibuf : Memory.wf Space.ibuf.blank t.ibuf ∧ Memory.within P.bufBytes t.ibuf) : t.Inv P :=
  inv_of_sameResult hi hr hibuf fun _ _ hp => by simp [ht] at hp

/-! Host events. -/

theorem inv_accept (hi : s.Inv P) (w : Word) : (accept P w s).Inv P :=
  inv_acceptIn (s := { s with accepted := s.accepted + 1 }) w (P.latency s.accepted) hi.ibufForm

/-- A write of any register but CMD leaves what the last command shows. -/
theorem sameResult_regWrite {r : Reg} (hr : r ≠ .cmd) (v : Word) : s.SameResult (regWrite P r v s) := by
  cases r with
  | cmd => exact absurd rfl hr
  | _ => exact ⟨rfl, rfl, rfl, rfl, rfl⟩

theorem regWrite_phase {r : Reg} (hr : r ≠ .cmd) (v : Word) : (regWrite P r v s).phase = s.phase := by
  cases r with
  | cmd => exact absurd rfl hr
  | _ => rfl

theorem regWrite_ibuf (r : Reg) (v : Word) : (regWrite P r v s).ibuf = s.ibuf := by
  cases r <;> rfl

theorem inv_regWrite (hi : s.Inv P) (hs : s.phase = .idle) (r : Reg) (v : Word) : (regWrite P r v s).Inv P := by
  by_cases hr : r = .cmd
  · subst hr
    exact inv_accept hi v
  · refine inv_of_sameResult_idle hi (sameResult_regWrite hr v) ((regWrite_phase hr v).trans hs) ?_
    rw [regWrite_ibuf]
    exact hi.ibufForm

/-- A write the bus accepts while IDLE. -/
theorem inv_busWrite {sp : Space} {off width : Nat} (hi : s.Inv P) (hs : s.phase = .idle)
    (hok : accessOk P sp off width = true) (v : Word) : (busWrite P sp off v s).Inv P := by
  cases sp with
  | reg => exact inv_regWrite hi hs (regAt off) v
  | obuf => exact hi
  | ibuf =>
    obtain ⟨hwf, hwithin⟩ := hi.ibufForm
    have hoff : off < P.bufBytes := ((accessOk_buffer_iff (by decide)).mp hok).1
    exact inv_of_sameResult_idle hi ⟨rfl, rfl, rfl, rfl, rfl⟩ hs
      ⟨Memory.wf_write hwf off _, Memory.within_write (blank := Space.ibuf.blank) hwithin hoff (v.setWidth 8)⟩

theorem inv_serveBus (hi : s.Inv P) (tr : Transaction) : (serveBus P tr s).Inv P := by
  cases tr with
  | memRead sp off width =>
    rcases serveBus_read P sp off width s with ⟨_, h⟩ | ⟨_, h⟩ <;> rw [h] <;> exact inv_congr hi rfl
  | memWrite sp off width v =>
    rcases serveBus_write P sp off width v s with ⟨_, h⟩ | ⟨_, _, h⟩ | ⟨hok, hbusy, h⟩ <;> rw [h]
    · exact inv_congr hi rfl
    · exact inv_congr hi rfl
    · exact inv_congr (inv_busWrite hi (isBusy_eq_false_iff.mp hbusy) hok v) rfl

/-- The empty buffer is in form. -/
theorem memoryForm_nil (blank : Option Byte) (limit : Nat) : Memory.wf blank [] ∧ Memory.within limit [] :=
  ⟨⟨.nil, by simp⟩, by simp⟩

/-- Reset gives a state that meets the invariant, whatever was in flight. -/
theorem inv_resetEngine (P : Params) (s : State) : (resetEngine s).Inv P where
  ibufForm := memoryForm_nil _ _
  obufForm := memoryForm_nil _ _
  busy _ _ hp := by simp at hp
  notDone _ := ⟨rfl, rfl, rfl, rfl⟩
  failed he := absurd rfl he
  beyond _ _ _ := rfl

theorem inv_hostTurn (hi : s.Inv P) : (hostTurn P s).Inv P := by
  cases hin : s.inbox with
  | nil =>
    rw [hostTurn, hin]
    exact hi
  | cons e rest =>
    have hrest : State.Inv P { s with inbox := rest } := inv_congr hi rfl
    rw [hostTurn_cons hin]
    cases e with
    | bus tr => exact inv_serveBus hrest tr
    | rst => exact inv_resetEngine P _

/-! Completion. -/

/-- Where no result is shown every OBUF cell reads 0x00. -/
theorem State.NoResult.obufAt_eq_zero (h : s.NoResult) (q : Nat) : s.obufAt q = 0 := by
  rw [State.obufAt, h.obuf]
  rfl

/-- COMPLETE of a success of a result that fits OBUF: the cells at OUT_LEN and above keep the 0x00 they held while
BUSY. -/
theorem inv_complete_success {r : Result} (hi : s.Inv P) (hp : s.phase = .busy sn left) (he : r.err = .none)
    (hlen : r.out.length ≤ P.bufBytes) : (complete P r s).Inv P where
  ibufForm := by
    rw [complete_ibuf]
    exact hi.ibufForm
  obufForm := by
    obtain ⟨hwf, hwithin⟩ := hi.obufForm
    rw [complete_success he]
    exact ⟨Memory.wf_writeBytes hwf 0 r.out, Memory.within_writeBytes hwithin 0 r.out (by omega)⟩
  busy _ _ h := by simp at h
  notDone h := by simp at h
  failed h := absurd ((complete_err P r s).trans he) h
  beyond h64 q hq := by
    obtain ⟨-, -, hno, -⟩ := hi.busy sn left hp
    have hc : s.Commits (complete P r s) r.out := commits_complete hi he
    have hout : r.out.length < 2 ^ 64 := by omega
    rw [hc.outLen hout, BitVec.toNat_ofNat, Nat.mod_eq_of_lt hout] at hq
    rw [hc.beyond q hq, hno.obufAt_eq_zero]

/-- COMPLETE of a failure shows no result, since none was shown while BUSY. -/
theorem inv_complete_failure {r : Result} (hi : s.Inv P) (hp : s.phase = .busy sn left) (he : r.err ≠ .none) :
    (complete P r s).Inv P := by
  obtain ⟨-, -, hno, -⟩ := hi.busy sn left hp
  have hshown : (complete P r s).NoResult := (fails_complete hi hp he rfl).noResult
  refine ⟨?_, ?_, fun _ _ h => by simp at h, fun h => by simp at h, fun _ => hshown,
    fun _ q _ => hshown.obufAt_eq_zero q⟩
  · rw [complete_ibuf]
    exact hi.ibufForm
  · rw [hshown.obuf]
    exact memoryForm_nil _ _

/-- Every command completes in a state that meets the invariant. -/
theorem inv_execIn_busy {i : Instr} (hi : s.Inv P) (hp : s.phase = .busy sn left)
    (h : execIn P i s = .next t) : t.Inv P := by
  rw [execIn_busy hp] at h
  cases h
  by_cases he : (resultOf P i sn).err = .none
  · obtain ⟨-, -, -, hlength, hdata⟩ := snapshot_live hi hp
    have hin : sn.data.length = min sn.length P.bufBytes := by rw [hdata, length_ibufBytes, hlength]
    exact inv_complete_success hi hp he (length_out_le i hin)
  · exact inv_complete_failure hi hp he

/-- One step, by which agent moves: the host while IDLE or with turns left, else COMPLETE. -/
theorem inv_stepWith (hi : s.Inv P) (h : stepWith P (execIn P) s = .next t) : t.Inv P := by
  rcases hp : s.phase with _ | ⟨sn, _ | left⟩
  · rw [stepWith_idle hp] at h
    cases h
    exact inv_hostTurn hi
  · rw [stepWith_due hp] at h
    exact inv_execIn_busy hi hp h
  · rw [stepWith_waiting hp] at h
    cases h
    exact inv_hostTurn (inv_wait hi hp)

/-- Settles O27, by which agent moves; this machine's step is the one under its own parameters. -/
theorem stepKeepsInvariant : Obligations.StepKeepsInvariant :=
  ⟨fun s _ hi h => inv_stepWith hi (step_eq_stepWith s ▸ h), fun _ _ _ hi h => inv_stepWith hi h⟩

end Sys2Proof.Machine
end

section
/-! The register map (10_state.md R21): reads, and writes while IDLE, offset by offset. -/

namespace Sys2Proof.Machine

variable {P : Params} {s : State} {off : Nat} {r : Reg}

/-- The register map lists every register at its own offset (R21, R76). -/
theorem offset_of_mem_regMap : ∀ p ∈ regMap, p.2.offset = p.1 := by decide

/-- An offset that holds a register is that register's offset. -/
theorem offset_regAt (h : regAt off ≠ .reserved) : (regAt off).offset = off := by
  cases hl : regMap.lookup off with
  | none => simp [regAt, hl] at h
  | some r =>
    obtain ⟨before, after, hmap, -⟩ := List.lookup_eq_some_iff.mp hl
    have hmem : (off, r) ∈ regMap := by simp [hmap]
    rw [regAt, hl, Option.getD_some]
    exact offset_of_mem_regMap _ hmem

theorem eq_offset_of_regAt (h : regAt off = r) (hr : r ≠ .reserved) : off = r.offset := by
  subst h
  exact (offset_regAt hr).symm

/-- Away from the eight offsets that read a register, a read gives 0. -/
theorem regRead_regAt_eq_zero (s : State)
    (h : ∀ r ∈ [Reg.status, .kekLen, .ivHi, .ivLo, .inLenLo, .inLenHi, .outLenLo, .outLenHi], off ≠ r.offset) :
    regRead (regAt off) s = 0 := by
  cases hr : regAt off with
  | cmd | kekW w | reserved => rfl
  | _ => exact absurd (eq_offset_of_regAt hr (by decide)) (h _ (by decide))

theorem answers_serveBus_regRead (halign : off % 4 = 0) (hmax : off ≤ 0x7C) :
    (serveBus P (.memRead .reg off 4) s).answers = ⟨.ok, some (regRead (regAt off) s)⟩ :: s.answers := by
  have hok : accessOk P .reg off 4 = true := accessOk_reg_iff.mpr ⟨halign, hmax, rfl⟩
  rcases serveBus_read P .reg off 4 s with ⟨_, h⟩ | ⟨hbad, _⟩
  · rw [h]
    rfl
  · simp [hok] at hbad

/-- Settles O11: a named offset reads its register; any other is CMD, a KEK word or reserved, and reads 0. -/
theorem registerReadsAsMapped : Obligations.RegisterReadsAsMapped := by
  intro P s off halign hmax
  rw [answers_serveBus_regRead halign hmax]
  congr 3
  split_ifs with h04 h08 h10 h14 h18 h1C h20 h24
  case neg => exact regRead_regAt_eq_zero s (by simp [Reg.offset, *])
  all_goals subst off; rfl

/-! Writes while IDLE. -/

/-- A write the bus accepts while IDLE is performed. -/
theorem serveBus_write_performed {sp : Space} {width : Nat} (hok : accessOk P sp off width = true)
    (hs : s.isBusy = false) (v : Word) :
    serveBus P (.memWrite sp off width v) s = (busWrite P sp off v s).answer .ok none := by
  simp [serveBus, hok, hs]

/-- STATUS, OUT_LEN and the reserved offsets ignore a write (R55). -/
theorem regWrite_regAt_ignored
    (h : off = 0x04 ∨ off = 0x0C ∨ (0x20 ≤ off ∧ off ≤ 0x3C) ∨ 0x60 ≤ off) (v : Word) :
    regWrite P (regAt off) v s = s := by
  cases hr : regAt off with
  | status | outLenLo | outLenHi | reserved => rfl
  | kekW w =>
    have hoff := eq_offset_of_regAt hr (by simp)
    simp only [Reg.offset] at hoff
    omega
  | _ =>
    have hoff := eq_offset_of_regAt hr (by decide)
    simp only [Reg.offset] at hoff
    omega

/-- Settles O12: the write is that of the register at the offset, clause by clause. -/
theorem registerWritesAsMapped : Obligations.RegisterWritesAsMapped := by
  intro P s off v hs halign hmax _
  have hok : accessOk P .reg off 4 = true := accessOk_reg_iff.mpr ⟨halign, hmax, rfl⟩
  simp only [serveBus_write_performed hok (isBusy_eq_false_iff.mpr hs), busWrite]
  refine ⟨?kekLen, ?ivHi, ?ivLo, ?inLenLo, ?inLenHi, fun x hx => ?kek, fun h => ?ignored⟩
  case kek =>
    rw [show regAt off = .kekW x from hx ▸ regAt_offset (.kekW x)]
    rfl
  case ignored =>
    rw [regWrite_regAt_ignored h]
    rfl
  all_goals rintro rfl; rfl

end Sys2Proof.Machine
end

section
/-! STATUS (10_state.md R23). -/

namespace Sys2Proof.Machine

variable {P : Params} {s : State}

theorem statusWord_busy {sn : Snapshot} {left : Nat} (hi : s.Inv P) (hp : s.phase = .busy sn left) :
    s.statusWord = 0x00000001 := by
  obtain ⟨hdone, herr, -, -⟩ := hi.busy sn left hp
  rw [State.statusWord, hdone, herr, isBusy_eq_true_iff.mpr ⟨sn, left, hp⟩]
  rfl

theorem statusWord_beforeDone (hi : s.Inv P) (hp : s.phase = .idle) (hd : s.done = false) :
    s.statusWord = 0x00000000 := by
  rw [State.statusWord, hd, (hi.notDone hd).1, isBusy_eq_false_iff.mpr hp]
  rfl

theorem statusWord_done (hp : s.phase = .idle) (hd : s.done = true) :
    s.statusWord = 0x00000002 ||| BitVec.ofNat 32 (s.err.code.toNat * 256) := by
  rw [State.statusWord, hd, isBusy_eq_false_iff.mpr hp]
  cases s.err <;> rfl

theorem ErrCode.code_toNat_le (e : ErrCode) : e.code.toNat ≤ 5 := by cases e <;> decide

/-- A STATUS with DONE set shows neither BUSY nor the value 1. -/
theorem doneStatus_not_busy : ∀ e ≤ 5, (0x00000002 ||| BitVec.ofNat 32 (e * 256) : Word) ≠ 0x00000001 ∧
    (0x00000002 ||| BitVec.ofNat 32 (e * 256) : Word).getLsbD 0 ≠ true := by decide

/-- Settles O16: BUSY, before the first completion, and after a completion. -/
theorem statusShowsOnlyThese : Obligations.StatusShowsOnlyThese := by
  intro P s hi
  cases hp : s.phase with
  | busy sn left => simp [statusWord_busy hi hp]
  | idle =>
    cases hd : s.done with
    | false => simp [statusWord_beforeDone hi hp hd]
    | true =>
      obtain ⟨hne, hbit⟩ := doneStatus_not_busy _ s.err.code_toNat_le
      rw [statusWord_done hp hd]
      exact ⟨.inr (.inr ⟨_, s.err.code_toNat_le, rfl⟩), iff_of_false hne (not_not.mpr rfl), fun h => hbit h.1⟩

end Sys2Proof.Machine
end

section
/-! The key words (10_state.md R28) reach no answer of the bus. -/

namespace Sys2Proof.Machine

variable {P : Params} {s t : State}

theorem regRead_withKek (r : Reg) (s : State) (k : Vector Word 8) : regRead r { s with kek := k } = regRead r s := by
  cases r <;> rfl

theorem busRead_withKek (sp : Space) (off : Nat) (s : State) (k : Vector Word 8) :
    busRead P sp off { s with kek := k } = busRead P sp off s := by
  cases sp with
  | reg => exact regRead_withKek _ s k
  | ibuf | obuf => rfl

theorem isBusy_withKek (s : State) (k : Vector Word 8) : State.isBusy { s with kek := k } = s.isBusy := rfl

/-- `t` is `s` but for the KEK words. -/
def State.SameButKek (s t : State) : Prop := ∃ k, t = { s with kek := k }

theorem State.SameButKek.answers_eq (h : s.SameButKek t) : t.answers = s.answers := by
  obtain ⟨k, rfl⟩ := h
  rfl

theorem State.SameButKek.answer (h : s.SameButKek t) (resp : BusResponse) (data : Option Word) :
    (s.answer resp data).SameButKek (t.answer resp data) := by
  obtain ⟨k, rfl⟩ := h
  exact ⟨k, rfl⟩

theorem sameButKek_regWrite {r : Reg} (hr : r ≠ .cmd) (v : Word) (k : Vector Word 8) :
    (regWrite P r v s).SameButKek (regWrite P r v { s with kek := k }) := by
  cases r with
  | cmd => exact absurd rfl hr
  | _ => exact ⟨_, rfl⟩

/-- Any write but one of CMD, whose snapshot would hold the key. -/
theorem sameButKek_busWrite {sp : Space} {off : Nat} (hcmd : sp = .reg → off ≠ 0) (v : Word) (k : Vector Word 8) :
    (busWrite P sp off v s).SameButKek (busWrite P sp off v { s with kek := k }) := by
  cases sp with
  | reg => exact sameButKek_regWrite (mt (regAt_eq_cmd_iff off).mp (hcmd rfl)) v k
  | ibuf | obuf => exact ⟨k, rfl⟩

/-- A read answers the same, and a write that is performed is no CMD write. -/
theorem sameButKek_serve {e : HostEvent} (he : ∀ v, e ≠ .bus (.memWrite .reg 0x00 4 v)) (h : s.SameButKek t) :
    (serve P e s).SameButKek (serve P e t) := by
  obtain ⟨k, rfl⟩ := h
  cases e with
  | rst => exact ⟨_, rfl⟩
  | bus tr =>
    cases tr with
    | memRead sp off width =>
      simp only [serve, serveBus, busRead_withKek]
      split <;> exact ⟨k, rfl⟩
    | memWrite sp off width v =>
      cases hok : accessOk P sp off width with
      | false => exact ⟨k, by simp [serve, serveBus, hok, State.flag, State.answer]⟩
      | true =>
        cases hbusy : s.isBusy with
        | true => exact ⟨k, by simp [serve, serveBus, hok, hbusy, isBusy_withKek, State.flag, State.answer]⟩
        | false =>
          have hcmd : sp = .reg → off ≠ 0 := by
            rintro rfl rfl
            obtain ⟨-, -, rfl⟩ := accessOk_reg_iff.mp hok
            exact he v rfl
          have hbusy' : State.isBusy { s with kek := k } = false := hbusy
          rw [serve, serve, serveBus_write_performed hok hbusy v, serveBus_write_performed hok hbusy' v]
          exact (sameButKek_busWrite hcmd v k).answer .ok none

theorem sameButKek_serveAll {es : List HostEvent} (hes : ∀ e ∈ es, ∀ v, e ≠ .bus (.memWrite .reg 0x00 4 v))
    (h : s.SameButKek t) : (serveAll P es s).SameButKek (serveAll P es t) := by
  induction es generalizing s t with
  | nil => exact h
  | cons e es ih =>
    rw [List.forall_mem_cons] at hes
    exact ih hes.2 (sameButKek_serve hes.1 h)

/-- Settles O17: over CMD-free events the two engines stay the same but for the KEK words, so their answers agree. -/
theorem keyNeverReadBack : Obligations.KeyNeverReadBack :=
  fun _ _ _ k hes => (sameButKek_serveAll hes ⟨k, rfl⟩).answers_eq

end Sys2Proof.Machine
end

section
/-! The IV register (10_state.md R25) under IV_SEL = 0. -/

namespace Sys2Proof.Machine

variable {P : Params} {sn : Snapshot}

/-- Only WRAP and UNWRAP with IV_SEL = 1 take their integrity value from the snapshot's IV (R107). -/
theorem resultOf_withIv {i : Instr} (hwrap : i ≠ .wrap true) (hunwrap : i ≠ .unwrap true) (v : Semiblock) :
    resultOf P i { sn with iv := v } = resultOf P i sn := by
  cases i with
  | wrap ivSel =>
    cases ivSel with
    | false => rfl
    | true => exact absurd rfl hwrap
  | unwrap ivSel =>
    cases ivSel with
    | false => rfl
    | true => exact absurd rfl hunwrap
  | wrapPad | unwrapPad | illegal w => rfl

/-- Settles O45: a word with IV_SEL = 0 decodes to no command that uses the IV register. -/
theorem ivRegisterUnusedWithoutIvSel : Obligations.IvRegisterUnusedWithoutIvSel := by
  intro P sn v hsel
  have hne : decode sn.word ≠ .wrap true ∧ decode sn.word ≠ .unwrap true := by
    rcases decode_cases sn.word with ⟨-, ⟨h, -⟩ | ⟨h, -⟩ | ⟨h, -⟩ | ⟨h, -⟩⟩ | ⟨-, h⟩ <;> simp [h, hsel]
  exact resultOf_withIv hne.1 hne.2 v

end Sys2Proof.Machine
end

section
/-! The bus (20_memory.md R51 to R55, R59): which accesses answer BUS_ERR, and what an access does to the state. -/

namespace Sys2Proof.Machine

variable {P : Params} {s : State} {sp : Space} {off width : Nat} {v : Word}

/-- The cases of R52 that answer BUS_ERR. -/
theorem accessOk_eq_false_iff : accessOk P sp off width = false ↔
    (sp = .reg ∧ (off % 4 ≠ 0 ∨ 0x7C < off ∨ width ≠ 4)) ∨ (sp ≠ .reg ∧ (P.bufBytes ≤ off ∨ width ≠ 1)) := by
  rw [← Bool.not_eq_true]
  by_cases hreg : sp = .reg
  · subst hreg
    rw [accessOk_reg_iff]
    simp only [true_and, ne_eq, not_true_eq_false, false_and, or_false]
    omega
  · rw [accessOk_buffer_iff hreg]
    simp only [hreg, false_and, ne_eq, not_false_eq_true, true_and, false_or]
    omega

theorem serveBus_read_ok (hok : accessOk P sp off width = true) (s : State) :
    serveBus P (.memRead sp off width) s = s.answer .ok (some (busRead P sp off s)) := by
  simp [serveBus, hok]

theorem serveBus_read_bad (hbad : accessOk P sp off width = false) (s : State) :
    serveBus P (.memRead sp off width) s = (s.flag .busError).answer .busErr (some 0) := by
  simp [serveBus, hbad]

theorem serveBus_write_bad (hbad : accessOk P sp off width = false) (v : Word) (s : State) :
    serveBus P (.memWrite sp off width v) s = (s.flag .busError).answer .busErr none := by
  simp [serveBus, hbad]

/-- A write the bus accepts while BUSY is lost (42_host_commands.md R163). -/
theorem serveBus_write_lost (hok : accessOk P sp off width = true) (hbusy : s.isBusy = true) (v : Word) :
    serveBus P (.memWrite sp off width v) s = (s.flag .writeWhileBusy).answer .ok none := by
  simp [serveBus, hok, hbusy]

theorem sameEngine_answer (s : State) (resp : BusResponse) (data : Option Word) :
    s.SameEngine (s.answer resp data) := rfl

theorem sameEngine_flag_answer (s : State) (f : HostFault) (resp : BusResponse) (data : Option Word) :
    s.SameEngine ((s.flag f).answer resp data) := rfl

theorem busWrite_answers (P : Params) (sp : Space) (off : Nat) (v : Word) (s : State) :
    (busWrite P sp off v s).answers = s.answers := by
  cases sp with
  | reg => simp only [busWrite]; cases regAt off <;> rfl
  | ibuf | obuf => rfl

/-- A write the bus accepts answers OK in either phase. -/
theorem answers_serveBus_write_ok (hok : accessOk P sp off width = true) (v : Word) (s : State) :
    (serveBus P (.memWrite sp off width v) s).answers = ⟨.ok, none⟩ :: s.answers := by
  cases hbusy : s.isBusy with
  | true => rw [serveBus_write_lost hok hbusy]; rfl
  | false => rw [serveBus_write_performed hok hbusy, State.answer_answers, busWrite_answers]

/-- Settles O8: the listed cases are those in which `accessOk` fails, and that check comes before the phase. -/
theorem busErrorsAsListed : Obligations.BusErrorsAsListed := by
  intro P s sp off width v
  refine ⟨fun hlisted => ?bad, fun hlisted => ?ok⟩
  case bad =>
    have hbad : accessOk P sp off width = false := accessOk_eq_false_iff.mpr hlisted
    simp only [serveBus_read_bad hbad, serveBus_write_bad hbad]
    exact ⟨sameEngine_flag_answer .., rfl, rfl, rfl, sameEngine_flag_answer .., rfl, rfl, rfl⟩
  case ok =>
    have hok : accessOk P sp off width = true := by simpa using mt accessOk_eq_false_iff.mp hlisted
    simp only [serveBus_read_ok hok]
    exact ⟨⟨_, rfl⟩, answers_serveBus_write_ok hok v s⟩

/-- Settles O13: a read adds its answer, and only BUS_ERR flags the host. -/
theorem readsHaveNoSideEffect : Obligations.ReadsHaveNoSideEffect := by
  intro P s sp off width
  cases hok : accessOk P sp off width with
  | true =>
    rw [serveBus_read_ok hok]
    exact ⟨sameEngine_answer .., fun _ => rfl⟩
  | false =>
    rw [serveBus_read_bad hok]
    exact ⟨sameEngine_flag_answer .., by simp⟩

end Sys2Proof.Machine
end

section
/-! The buffers IBUF (20_memory.md R53) and OBUF (R54). -/

namespace Sys2Proof.Machine

variable {P : Params} {s t : State} {off : Nat} {i : Instr}

/-- The one access to a buffer cell that answers OK (R52). -/
theorem accessOk_cell {sp : Space} (hsp : sp ≠ .reg) (hoff : off < P.bufBytes) : accessOk P sp off 1 = true :=
  (accessOk_buffer_iff hsp).mpr ⟨hoff, rfl⟩

/-- A read of an IBUF cell, in either phase. -/
theorem answers_serveBus_ibufRead (hoff : off < P.bufBytes) (s : State) :
    (serveBus P (.memRead .ibuf off 1) s).answers =
      ⟨.ok, some ((s.ibufAt P off).setWidth 32)⟩ :: s.answers := by
  rw [serveBus_read_ok (accessOk_cell (by decide) hoff)]
  rfl

/-- A read of an OBUF cell, in either phase. -/
theorem answers_serveBus_obufRead (hoff : off < P.bufBytes) (s : State) :
    (serveBus P (.memRead .obuf off 1) s).answers = ⟨.ok, some ((s.obufAt off).setWidth 32)⟩ :: s.answers := by
  rw [serveBus_read_ok (accessOk_cell (by decide) hoff)]
  rfl

/-- The IBUF cells after one is written. -/
theorem ibufAt_busWrite (hwf : Memory.wf Space.ibuf.blank s.ibuf) (off q : Nat) (v : Word) :
    (busWrite P .ibuf off v s).ibufAt P q = if q = off then v.setWidth 8 else s.ibufAt P q := by
  simp only [State.ibufAt, busWrite, Memory.find_write hwf.1, Space.blank]
  split <;> simp

/-- No command writes IBUF, in flight or accepted from IDLE. -/
theorem ibufAt_execIn (h : execIn P i s = .next t) (q : Nat) : t.ibufAt P q = s.ibufAt P q := by
  rw [execIn_eq] at h
  cases h
  cases hp : s.phase with
  | busy sn left => simp [State.ibufAt, inFlight_busy hp]
  | idle => simp [State.ibufAt, inFlight_idle hp]

/-- Settles O9, by the phase: a write while IDLE is performed, one while BUSY is lost. -/
theorem ibufWriteSetsOneCell : Obligations.IbufWriteSetsOneCell := by
  intro P s off v hi hoff
  have hok : accessOk P .ibuf off 1 = true := accessOk_cell (by decide) hoff
  refine ⟨answers_serveBus_ibufRead hoff s, fun hidle => ?idle, fun hbusy => ?busy, fun _ _ h q => ibufAt_execIn h q⟩
  case idle =>
    have hcells (q : Nat) : ((busWrite P .ibuf off v s).answer .ok none).ibufAt P q =
        if q = off then v.setWidth 8 else s.ibufAt P q := ibufAt_busWrite hi.ibufForm.1 off q v
    simp only [serveBus_write_performed hok (isBusy_eq_false_iff.mpr hidle)]
    refine ⟨rfl, hcells, ?_⟩
    rw [answers_serveBus_ibufRead hoff, hcells, if_pos rfl]
  case busy =>
    simp only [serveBus_write_lost hok hbusy]
    exact ⟨sameEngine_flag_answer .., rfl⟩

/-- Settles O10: an OBUF write is performed as no change, or lost, and no result is shown while BUSY. -/
theorem obufReadOnly : Obligations.ObufReadOnly := by
  intro P s off v hi hoff
  have hok : accessOk P .obuf off 1 = true := accessOk_cell (by decide) hoff
  refine ⟨answers_serveBus_obufRead hoff s, fun hbusy => ?cleared, ?unchanged, answers_serveBus_write_ok hok v s,
    fun hidle => serveBus_write_performed hok (isBusy_eq_false_iff.mpr hidle) v⟩
  case cleared =>
    obtain ⟨sn, left, hp⟩ := isBusy_eq_true_iff.mp hbusy
    obtain ⟨-, -, hno, -⟩ := hi.busy sn left hp
    exact hno.obufAt_eq_zero off
  case unchanged =>
    cases hbusy : s.isBusy with
    | true => rw [serveBus_write_lost hok hbusy]; exact sameEngine_flag_answer ..
    | false => rw [serveBus_write_performed hok hbusy]; exact sameEngine_answer ..

end Sys2Proof.Machine
end

section
/-! The command word (30_encoding.md R70 to R75): the encoder and the decoders undo each other, and the legal words. -/

namespace Sys2Proof

variable {w : Word} {i : Instr}

/-- The table decoder accepts every 32-bit word. -/
theorem decodeTableWord_toNat (w : Word) : decodeTableWord 32 w.toNat = some (decode w) := by
  have hlt : ¬ 2 ^ 32 ≤ w.toNat := Nat.not_le.mpr w.isLt
  rw [decodeTableWord, decodeBits, if_neg (lt_irrefl 32), if_neg hlt, BitVec.ofNat_toNat, BitVec.setWidth_eq]

theorem decode_encode (h : i.wf = true) : decode (encode i) = i := by
  cases i with
  | wrap ivSel => exact Laws.RoundTrip.wrap ivSel h
  | unwrap ivSel => exact Laws.RoundTrip.unwrap ivSel h
  | wrapPad => exact Laws.RoundTrip.wrapPad h
  | unwrapPad => exact Laws.RoundTrip.unwrapPad h
  | illegal w => exact Laws.RoundTrip.illegal w h

theorem decodeTableWord_encode (h : i.wf = true) : decodeTableWord 32 (encode i).toNat = some i := by
  rw [decodeTableWord_toNat, decode_encode h]

/-- Settles O1: each constructor's round trip; the table decoder agrees with the decoder on a word's number. -/
theorem decodeInvertsEncode : Obligations.DecodeInvertsEncode :=
  fun _ hwf => ⟨decode_encode hwf, decodeTableWord_encode hwf⟩

/-- `legal` in terms of the fields (R71, R73). -/
theorem legal_iff : legal w = true ↔ reservedField w = 0 ∧
    (opField w = 1 ∨ opField w = 2 ∨ ((opField w = 3 ∨ opField w = 4) ∧ ivSelField w = false)) := by
  simp [legal, or_assoc]

theorem ofBool_ivSelField (w : Word) : BitVec.ofBool (ivSelField w) = w.extractLsb' 4 1 := by
  apply BitVec.eq_of_getLsbD_eq
  intro n hn
  obtain rfl : n = 0 := by omega
  simp [ivSelField]

/-- A word whose reserved bits are zero is made of its other two fields (R71). -/
theorem commandWord_fields (h : reservedField w = 0) : commandWord (ivSelField w) (opField w) = w := by
  rw [commandWord, ← h, reservedField, ofBool_ivSelField, opField,
    BitVec.extractLsb'_append_extractLsb'_eq_extractLsb' (show 5 = 4 + 1 from rfl),
    BitVec.extractLsb'_append_extractLsb'_eq_extractLsb' (show 4 = 0 + 4 from rfl), BitVec.extractLsb'_eq_self]

/-- The six legal words are those of the encoder's legal commands (R70, R73). -/
theorem legal_iff_mem : legal w = true ↔
    w = 0x00000001 ∨ w = 0x00000011 ∨ w = 0x00000002 ∨ w = 0x00000012 ∨ w = 0x00000003 ∨ w = 0x00000004 := by
  constructor
  · intro h
    obtain ⟨hreserved, hop⟩ := legal_iff.mp h
    rw [← commandWord_fields hreserved]
    rcases hop with hop | hop | ⟨hop | hop, hiv⟩
    · rw [hop]; cases ivSelField w <;> decide
    · rw [hop]; cases ivSelField w <;> decide
    · rw [hop, hiv]; decide
    · rw [hop, hiv]; decide
  · rintro (rfl | rfl | rfl | rfl | rfl | rfl) <;> decide

theorem decode_of_not_legal (h : legal w = false) : decode w = .illegal w :=
  Laws.RoundTrip.illegal w (by simp [Instr.wf, h])

/-- Settles O3: the formula in its fields; the six words; each is the encoding of its command. -/
theorem sixLegalWords : Obligations.SixLegalWords :=
  ⟨fun _ => legal_iff, fun _ => legal_iff_mem,
    decode_encode (i := .wrap false) rfl, decode_encode (i := .wrap true) rfl,
    decode_encode (i := .unwrap false) rfl, decode_encode (i := .unwrap true) rfl,
    decode_encode (i := .wrapPad) rfl, decode_encode (i := .unwrapPad) rfl, fun _ => decode_of_not_legal⟩

/-- A word decodes to a well-formed command: only a word that is not legal becomes an illegal command. -/
theorem wf_decode (w : Word) : (decode w).wf = true := by
  rcases Machine.decode_cases w with ⟨-, ⟨h, -⟩ | ⟨h, -⟩ | ⟨h, -⟩ | ⟨h, -⟩⟩ | ⟨hw, h⟩ <;> rw [h]
  case inr => simp [Instr.wf, hw]
  all_goals rfl

theorem encode_decode (w : Word) : encode (decode w) = w := by
  cases hw : legal w with
  | false => rw [decode_of_not_legal hw]; rfl
  | true =>
    rcases legal_iff_mem.mp hw with rfl | rfl | rfl | rfl | rfl | rfl <;> decide

/-- Settles O2: a legal word is one of six; an illegal command keeps its word. -/
theorem encodeInvertsDecode : Obligations.EncodeInvertsDecode :=
  fun w => ⟨encode_decode w, wf_decode w⟩

/-- Settles O4: the six words are encodings of well-formed commands, or illegal words. -/
theorem wordsDecodeAsTabled : Obligations.WordsDecodeAsTabled :=
  ⟨decodeTableWord_encode (i := .wrap false) rfl, decodeTableWord_encode (i := .unwrap true) rfl,
    decodeTableWord_encode (i := .wrapPad) rfl, decodeTableWord_encode (i := .unwrapPad) rfl,
    decodeTableWord_encode (i := .illegal 0x13) rfl, decodeTableWord_encode (i := .illegal 0x80000002) rfl⟩

end Sys2Proof
end

section
/-! The step never stops (42_host_commands.md R162, 60_exceptions.md R212). -/

namespace Sys2Proof.Machine

theorem stepWith_execIn_next (P : Params) (s : State) : ∃ t, stepWith P (execIn P) s = .next t := by
  rcases hp : s.phase with _ | ⟨sn, _ | left⟩
  · exact ⟨_, stepWith_idle hp⟩
  · exact ⟨_, (stepWith_due hp).trans (execIn_eq P _ s)⟩
  · exact ⟨_, stepWith_waiting hp⟩

/-- Settles O25: a step is the host's turn or a command's completion, and both answer a next state. -/
theorem stepNeverStops : Obligations.StepNeverStops :=
  fun s => step_eq_stepWith s ▸ stepWith_execIn_next Config.params s

end Sys2Proof.Machine
end

section
/-! The illegal command (30_encoding.md R74, 60_exceptions.md R206). -/

namespace Sys2Proof.Machine

variable {P : Params} {s : State}

/-- A CMD write while IDLE is accepted (42_host_commands.md R160). -/
theorem serveBus_cmdWrite (hs : s.phase = .idle) (w : Word) :
    serveBus P (.memWrite .reg 0x00 4 w) s = (accept P w s).answer .ok none :=
  serveBus_write_performed (accessOk_reg_iff.mpr ⟨rfl, by decide, rfl⟩) (isBusy_eq_false_iff.mpr hs) w

theorem illegalEnd_execIn (P : Params) : IllegalEnd P (execIn P) := by
  refine ⟨fun s w hi hbusy => ?completes, fun s w hw hs => ?accepted⟩
  case completes =>
    obtain ⟨sn, left, hp⟩ := isBusy_eq_true_iff.mp hbusy
    have hfail : illegalResult.err ≠ .none := by decide
    exact ⟨_, execIn_busy hp, fails_complete hi hp hfail rfl, fun _ _ _ => rfl⟩
  case accepted =>
    rw [serveBus_cmdWrite hs]
    exact ⟨rfl, _, _, rfl, decode_of_not_legal hw⟩

/-- Settles O38: the illegal command in flight fails with code 5 under every configuration, so under this machine's. -/
theorem illegalWordCompletes : Obligations.IllegalWordCompletes := by
  refine ⟨?_, fun P _ => illegalEnd_execIn P⟩
  rw [exec_eq]
  exact illegalEnd_execIn Config.params

end Sys2Proof.Machine
end

section
/-! SETKEK (30_encoding.md R77): the key words of a key, and the writes that load them. -/

namespace Sys2Proof.Machine

variable {P : Params} {s : State}

/-- The first words of a byte string, joined again. -/
theorem flatMap_range_words (l : List Byte) (n : Nat) :
    ((List.range n).flatMap fun w => (l.drop (4 * w)).take 4) = l.take (4 * n) := by
  induction n with
  | zero => rfl
  | succ n ih => simp [List.range_succ, ih, Nat.mul_succ, List.take_add]

/-- A word read from four bytes gives them back (R11). -/
theorem beBytes_ofNat_uintBe {b : List Byte} (h : b.length = 4) : beBytes 4 (BitVec.ofNat 32 (uintBe b)).toNat = b := by
  have hlt : uintBe b < 2 ^ 32 := by simpa [h] using uintBe_lt b
  rw [BitVec.toNat_ofNat, Nat.mod_eq_of_lt hlt, ← h, beBytes_uintBe]

/-- KEKBYTES, where the KEK words are those of a key (R28, R77). -/
theorem kekBytes_of_words {k : List Byte} (hk : k.length ≤ 32) {kek : Vector Word 8}
    (h : ∀ w : Fin 8, kek[w] = kekWordOf k w) : kekBytes kek = k ++ List.replicate (32 - k.length) 0 := by
  have hwords : kek.toList = (List.range 8).map (kekWordOf k) := by
    apply List.ext_getElem
    · simp
    · intro i hi _
      have hi' : i < 8 := by simpa using hi
      simpa using h ⟨i, hi'⟩
  have hlen : (k ++ List.replicate (32 - k.length) 0).length = 32 := by
    rw [List.length_append, List.length_replicate]; omega
  have hbytes : ∀ w ∈ List.range 8, beBytes 4 (kekWordOf k w).toNat =
      ((k ++ List.replicate (32 - k.length) 0).drop (4 * w)).take 4 := by
    intro w hw
    have hw' : w < 8 := List.mem_range.mp hw
    refine beBytes_ofNat_uintBe ?_
    rw [List.length_take, List.length_drop, hlen]
    omega
  rw [kekBytes, hwords, List.flatMap_map, List.flatMap_congr hbytes, flatMap_range_words,
    List.take_of_length_le hlen.le]

theorem serve_kekWrite (w : Fin 8) (v : Word) (hs : s.phase = .idle) : serve P (hostWr (.kekW w) v) s =
    { s with kek := s.kek.set w v, answers := ⟨.ok, none⟩ :: s.answers } :=
  serve_hostWr (.kekW w) v hs

/-- Writes of KEK words on an IDLE engine: each word named takes its value, and only the KEK words change. -/
theorem serveAll_kekWrites (ws : List (Fin 8)) (f : Fin 8 → Word) (hs : s.phase = .idle) :
    ∃ kek answers, serveAll P (ws.map fun w => hostWr (.kekW w) (f w)) s = { s with kek := kek, answers := answers } ∧
      ∀ x : Fin 8, kek[x] = if x ∈ ws then f x else s.kek[x] := by
  induction ws generalizing s with
  | nil => exact ⟨s.kek, s.answers, rfl, fun x => by simp⟩
  | cons w ws ih =>
    rw [List.map_cons, serveAll_cons, serve_kekWrite w (f w) hs]
    obtain ⟨kek, answers, hrun, hwords⟩ := ih
      (s := { s with kek := s.kek.set w (f w), answers := ⟨.ok, none⟩ :: s.answers }) hs
    refine ⟨kek, answers, hrun, fun x => ?_⟩
    rw [hwords]
    by_cases hx : x = w
    · simp [hx]
    · have hset : (s.kek.set w (f w))[x] = s.kek[x] := Vector.getElem_set_ne _ _ (Fin.val_ne_of_ne (Ne.symm hx))
      simp [hx, hset]

/-- SETKEK, as one update of the state. -/
theorem serveAll_setKek {k : List Byte} (hs : s.phase = .idle) (hk : k.length ≤ 32) :
    ∃ kek answers, serveAll P (setKek k) s =
        { s with kek := kek, kekLen := BitVec.ofNat 8 k.length, answers := answers } ∧
      kekBytes kek = k ++ List.replicate (32 - k.length) 0 := by
  obtain ⟨kek, answers, hrun, hwords⟩ :=
    serveAll_kekWrites (P := P) (List.finRange 8) (fun w => kekWordOf k w) hs
  have hlen : (BitVec.ofNat 32 k.length).setWidth 8 = BitVec.ofNat 8 k.length := by bv_omega
  refine ⟨kek, ⟨.ok, none⟩ :: answers, ?_, kekBytes_of_words hk fun w => ?_⟩
  · rw [setKek, serveAll_append, hrun, serveAll_cons, serveAll_nil, serve_hostWr _ _ (by exact hs), regWrite, hlen]
  · simpa using hwords w

/-- Settles O19: the eight key words join to the padded key, and its length fits KEK_LEN. -/
theorem setKekLoadsKey : Obligations.SetKekLoadsKey := by
  intro P s k hs hk
  have hlen : k.length ≤ 32 := by omega
  obtain ⟨kek, answers, hrun, hbytes⟩ := serveAll_setKek (P := P) hs hlen
  simp only [hrun, and_true]
  refine ⟨hbytes, ?_⟩
  rw [BitVec.toNat_ofNat, Nat.mod_eq_of_lt (by omega)]

end Sys2Proof.Machine
end

section
/-! LOADIN (30_encoding.md R77): the writes of a byte string into IBUF (20_memory.md R53) and of its length (R26). -/

namespace Sys2Proof.Machine

variable {P : Params} {s : State}

/-- Byte writes from cell `q` on of an IDLE engine: the cells take the bytes, and only IBUF changes. -/
theorem serveAll_hostWrbs (q : Nat) (d : List Byte) (hs : s.phase = .idle) (hd : q + d.length ≤ P.bufBytes)
    (hm : Memory.wf Space.ibuf.blank s.ibuf) :
    ∃ ibuf answers, serveAll P (hostWrbs q d) s = { s with ibuf := ibuf, answers := answers } ∧
      ∀ x, Memory.find ibuf x = if q ≤ x ∧ x < q + d.length then d[x - q]? else Memory.find s.ibuf x := by
  induction d generalizing q s with
  | nil => exact ⟨s.ibuf, s.answers, rfl, fun x => by simp⟩
  | cons b d ih =>
    rw [List.length_cons] at hd
    rw [hostWrbs, serveAll_cons, serve_hostWrb b hs (by omega)]
    obtain ⟨ibuf, answers, hrun, hcells⟩ := ih (q + 1)
      (s := { s with ibuf := Memory.write none s.ibuf q b, answers := ⟨.ok, none⟩ :: s.answers }) hs (by omega)
      (Memory.wf_write hm q b)
    refine ⟨ibuf, answers, hrun, fun x => ?_⟩
    rw [hcells, Memory.find_write hm.1, List.length_cons]
    rcases Nat.lt_trichotomy x q with hx | rfl | hx
    · rw [if_neg (by omega), if_neg (by omega), if_neg (by omega)]
    · simp
    · have hidx : x - q = x - (q + 1) + 1 := by omega
      rw [if_neg (show x ≠ q by omega), hidx, List.getElem?_cons_succ]
      exact if_congr (by omega) rfl rfl

/-- Two 32-bit halves of a number are its low 64 bits (R26). -/
theorem ofNat_halves (n : Nat) : BitVec.ofNat 32 (n / 2 ^ 32) ++ BitVec.ofNat 32 (n % 2 ^ 32) = BitVec.ofNat 64 n := by
  apply BitVec.eq_of_toNat_eq
  have hlo : n % 2 ^ 32 % 2 ^ 32 = n % 2 ^ 32 := Nat.mod_mod _ _
  rw [BitVec.toNat_append, BitVec.toNat_ofNat, BitVec.toNat_ofNat, BitVec.toNat_ofNat, hlo,
    ← Nat.shiftLeft_add_eq_or_of_lt (by omega), Nat.shiftLeft_eq]
  omega

/-- LOADIN, as one update of the state. -/
theorem serveAll_loadIn {d : List Byte} (hs : s.phase = .idle) (hd : d.length ≤ P.bufBytes)
    (hm : Memory.wf Space.ibuf.blank s.ibuf) :
    ∃ ibuf answers, serveAll P (loadIn d) s =
        { s with
          ibuf := ibuf, inLenLo := BitVec.ofNat 32 (d.length % 2 ^ 32), inLenHi := BitVec.ofNat 32 (d.length / 2 ^ 32)
          answers := answers } ∧
      ∀ x, Memory.find ibuf x = if x < d.length then d[x]? else Memory.find s.ibuf x := by
  obtain ⟨ibuf, answers, hrun, hcells⟩ := serveAll_hostWrbs (P := P) 0 d hs (by omega) hm
  refine ⟨ibuf, ⟨.ok, none⟩ :: ⟨.ok, none⟩ :: answers, ?_, by simpa using hcells⟩
  rw [loadIn, serveAll_append, hrun, serveAll_cons, serveAll_cons, serveAll_nil, serve_hostWr .inLenLo _ (by exact hs),
    serve_hostWr .inLenHi _ (by exact hs)]
  rfl

/-- Settles O20: the cells read as written below the length and as before above it. -/
theorem loadInLoadsInput : Obligations.LoadInLoadsInput := by
  intro P s d hi hs hd _
  obtain ⟨ibuf, answers, hrun, hcells⟩ := serveAll_loadIn (P := P) hs hd hi.ibufForm.1
  simp only [hrun, and_true]
  refine ⟨?loaded, fun q hq => ?above, ofNat_halves d.length⟩
  case loaded =>
    apply List.ext_getElem
    · simp
    · intro x _ hx
      simp [State.ibufBytes, State.ibufAt, hcells, hx]
  case above => rw [State.ibufAt, State.ibufAt, hcells, if_neg (by omega)]

end Sys2Proof.Machine
end

section
/-! The loops of W and U (40_keywrap.md R102, R103): their counters, and one step of each under an arbitrary cipher,
on bytes (20_memory.md R56). -/

namespace Sys2Proof.Machine

/-- The counters of the first `m` rounds (R105). -/
theorem rounds_counters (n m : Nat) :
    ((List.range m).flatMap fun j => (List.range n).map fun i => n * j + (i + 1)) = List.range' 1 (m * n) := by
  induction m with
  | zero => simp
  | succ m ih =>
    have hround : ((List.range n).map fun i => n * m + (i + 1)) = List.range' (1 + m * n) n := by
      rw [List.range'_eq_map_range]
      exact List.map_congr_left fun i _ => by rw [Nat.mul_comm n m]; omega
    rw [List.range_succ, List.flatMap_append, ih, List.flatMap_singleton, hround, List.range'_append_1, Nat.succ_mul]

theorem wrapOrder_counters (n : Nat) :
    (wrapOrder n).map (fun ji => n * ji.1 + ji.2) = List.range' 1 (6 * n) := by
  simp only [wrapOrder, List.map_flatMap, List.map_map]
  exact rounds_counters n 6

/-- Settles O46: the counters of W by induction on the number of rounds; the order of U is the reverse of W's. -/
theorem roundCountersInOrder : Obligations.RoundCountersInOrder := by
  intro n
  simp only [unwrapOrder_eq_reverse, List.map_reverse, List.mem_reverse, wrapOrder_counters, true_and, and_self]
  exact fun _ => mem_wrapOrder

/-- R[i] of a working state that has it. -/
theorem Work.reg_of_getElem? {w : Work} {i : Nat} {r : Semiblock} (h : w.r[i - 1]? = some r) : w.reg i = r := by
  rw [Work.reg, List.getD_eq_getElem?_getD, h, Option.getD_some]

/-- The bytes of the 64-bit number `t` are be64(t) (00_scope.md R11). -/
theorem semiblockBytes_ofNat {t : Nat} (ht : t < 2 ^ 64) : semiblockBytes (BitVec.ofNat 64 t) = beBytes 8 t := by
  rw [semiblockBytes, BitVec.toNat_ofNat, Nat.mod_eq_of_lt ht]

/-- Settles O55: a block of two semiblocks has the bytes of the first and then those of the second. -/
theorem loopStepsAsSpecified : Obligations.LoopStepsAsSpecified := by
  unfold Obligations.LoopStepsAsSpecified
  simp only [blockOf_append, semiblockOf_take_blockBytes, semiblockOf_drop_blockBytes]
  refine ⟨fun P k n j i w r _ hr => ?wrapStep, fun P k n j i w r _ hr => ?unwrapStep,
    fun _ => semiblockBytes_ofNat, fun _ _ _ _ => ⟨rfl, rfl⟩⟩
  case wrapStep => rw [wrapBody, Work.reg_of_getElem? hr]; rfl
  case unwrapStep => rw [unwrapBody, Work.reg_of_getElem? hr]; rfl

end Sys2Proof.Machine
end

section
/-! W and U undo each other under the cipher law (40_keywrap.md R101, R104), and W under the identity cipher
(95_test_vectors.md section 2.3). -/

namespace Sys2Proof.Machine

variable {P : Params} {k : List Byte}

/-- U of what W made (R104). -/
theorem unwrapTransform_wrapTransform (hk : ∀ x, P.dec k (P.enc k x) = x) (a : Semiblock) (p : List Semiblock) :
    (unwrapTransform P k (wrapTransform P k a p).a (wrapTransform P k a p).r).a = a ∧
    (unwrapTransform P k (wrapTransform P k a p).a (wrapTransform P k a p).r).r = p := by
  rw [unwrapTransform, unwrapOrder_eq_reverse, length_wrapTransform_r]
  refine foldl_reverse_undoes (n := p.length) (f := fun ji => wrapBody P k p.length ji.1 ji.2)
    (g := fun ji => unwrapBody P k p.length ji.1 ji.2) (fun _ _ w hw => by rw [wrapBody_r_length, hw])
    (fun _ _ _ _ => unwrapBody_congr) (fun ji hji w hw => ?undo) ⟨a, p, []⟩ _ rfl rfl rfl
  case undo =>
    obtain ⟨-, hlow, hhigh⟩ := mem_wrapOrder hji
    exact unwrapBody_wrapBody hk _ _ hlow (by omega)

/-- W of what U recovered. -/
theorem wrapTransform_unwrapTransform (hk : ∀ x, P.enc k (P.dec k x) = x) (c0 : Semiblock) (c : List Semiblock) :
    (wrapTransform P k (unwrapTransform P k c0 c).a (unwrapTransform P k c0 c).r).a = c0 ∧
    (wrapTransform P k (unwrapTransform P k c0 c).a (unwrapTransform P k c0 c).r).r = c := by
  have horder : wrapOrder c.length = (unwrapOrder c.length).reverse := by
    rw [unwrapOrder_eq_reverse, List.reverse_reverse]
  rw [wrapTransform, length_unwrapTransform_r, horder]
  refine foldl_reverse_undoes (n := c.length) (f := fun ji => unwrapBody P k c.length ji.1 ji.2)
    (g := fun ji => wrapBody P k c.length ji.1 ji.2) (fun _ _ w hw => by rw [unwrapBody_r_length, hw])
    (fun _ _ _ _ => wrapBody_congr) (fun ji hji w hw => ?undo) ⟨c0, c, []⟩ _ rfl rfl rfl
  case undo =>
    rw [unwrapOrder_eq_reverse, List.mem_reverse] at hji
    obtain ⟨-, hlow, hhigh⟩ := mem_wrapOrder hji
    exact wrapBody_unwrapBody hk _ _ hlow (by omega)

/-- Settles O47: each step of U undoes the step of W with the same indices, in the opposite order. -/
theorem unwrapInvertsWrap : Obligations.UnwrapInvertsWrap :=
  fun P k a0 p hlaw hlen =>
    ⟨length_wrapTransform_r P k a0 p, unwrapTransform_wrapTransform (fun x => (hlaw k hlen x).1) a0 p⟩

/-- Settles O48: each step of W undoes the step of U with the same indices, in the opposite order. -/
theorem wrapInvertsUnwrap : Obligations.WrapInvertsUnwrap :=
  fun P k c0 c hlaw hlen =>
    ⟨length_unwrapTransform_r P k c0 c, wrapTransform_unwrapTransform (fun x => (hlaw k hlen x).2) c0 c⟩

/-- One step of W under the identity cipher: the counter goes into A, and R[i] is written back as it was. -/
theorem wrapBody_identity (hk : ∀ x, P.enc k x = x) (n j : Nat) {i : Nat} {w : Work} (h1 : 1 ≤ i)
    (h2 : i ≤ w.r.length) :
    (wrapBody P k n j i w).a = w.a ^^^ BitVec.ofNat 64 (n * j + i) ∧ (wrapBody P k n j i w).r = w.r := by
  simp only [wrapBody, cipher, hk, msb64_blockPair, lsb64_blockPair, set_reg h1 h2, roundCounter, and_self]

theorem foldl_wrapBody_identity (hk : ∀ x, P.enc k x = x) (n : Nat) (l : List (Nat × Nat)) (w : Work)
    (hl : ∀ ji ∈ l, 1 ≤ ji.2 ∧ ji.2 ≤ w.r.length) :
    (l.foldl (fun u ji => wrapBody P k n ji.1 ji.2 u) w).r = w.r ∧
    (l.foldl (fun u ji => wrapBody P k n ji.1 ji.2 u) w).a =
      (l.map fun ji => n * ji.1 + ji.2).foldl (fun a t => a ^^^ BitVec.ofNat 64 t) w.a := by
  induction l generalizing w with
  | nil => exact ⟨rfl, rfl⟩
  | cons ji l ih =>
    obtain ⟨hji, hl⟩ := List.forall_mem_cons.mp hl
    obtain ⟨ha, hr⟩ := wrapBody_identity hk n ji.1 hji.1 hji.2
    have hrest := ih (wrapBody P k n ji.1 ji.2 w) (by rwa [hr])
    rw [hr, ha] at hrest
    exact hrest

/-- Settles O49: a step XORs its counter into A, and the counters are 1, ..., 6n in order. -/
theorem identityCipherShowsCounters : Obligations.IdentityCipherShowsCounters := by
  intro P k a0 p hk
  rw [← wrapOrder_counters]
  exact foldl_wrapBody_identity hk p.length (wrapOrder p.length) ⟨a0, p, []⟩ fun _ hji => (mem_wrapOrder hji).2

end Sys2Proof.Machine
end

section
/-! WRAP and UNWRAP (40_keywrap.md R108 to R113): their checks, and how they complete on legal operands. -/

namespace Sys2Proof.Machine

variable {P : Params} {s t : State} {sn : Snapshot} {left : Nat}

/-! Operands that are not legal. -/

/-- Every command but the illegal one checks the key length first (60_exceptions.md R210). -/
theorem resultOf_badKey {i : Instr} (hi : ∀ w, i ≠ .illegal w) (hk : ¬ LegalKeyLength sn.klen.toNat) :
    resultOf P i sn = .raise .invalidKeyLength [] := by
  have hcheck : keyLengthLegal sn.klen = false := (keyLengthLegal_eq_false_iff _).mpr hk
  cases i with
  | wrap ivSel => rw [resultOf, wrapResult, wrapCheck, if_pos hcheck]
  | unwrap ivSel => rw [resultOf, unwrapResult, unwrapCheck, if_pos hcheck]
  | wrapPad => rw [resultOf, wrapPadResult, wrapPadCheck, if_pos hcheck]
  | unwrapPad => rw [resultOf, unwrapPadResult, unwrapPadCheck, if_pos hcheck]
  | illegal w => exact absurd rfl (hi w)

/-- WRAP's error on a bad length (R108). -/
theorem wrapResult_badLength (ivSel : Bool) (hk : LegalKeyLength sn.klen.toNat)
    (hbad : ¬ (sn.length % 8 = 0 ∧ 16 ≤ sn.length ∧ sn.length / 8 ≤ P.sbMax)) :
    wrapResult P ivSel sn = .raise .invalidPlaintextLength [] := by
  rcases wrapResult_cases P ivSel sn with ⟨e, hcheck, hres⟩ | ⟨hcheck, -⟩
  · rcases wrapCheck_eq_some hcheck with ⟨hbadKey, -⟩ | ⟨-, rfl⟩
    · exact absurd hk hbadKey
    · exact hres
  · exact absurd ((wrapCheck_eq_none_iff _ _).mp hcheck).2 hbad

/-- UNWRAP's error on a bad length (R110). -/
theorem unwrapResult_badLength (ivSel : Bool) (hk : LegalKeyLength sn.klen.toNat)
    (hbad : ¬ (sn.length % 8 = 0 ∧ 24 ≤ sn.length ∧ sn.length / 8 - 1 ≤ P.sbMax)) :
    unwrapResult P ivSel sn = .raise .invalidWrappedLength [] := by
  rcases unwrapResult_cases P ivSel sn with ⟨e, hcheck, hres⟩ | ⟨hcheck, -⟩ | ⟨hcheck, -⟩
  · rcases unwrapCheck_eq_some hcheck with ⟨hbadKey, -⟩ | ⟨-, rfl⟩
    · exact absurd hk hbadKey
    · exact hres
  all_goals exact absurd ((unwrapCheck_eq_none_iff _ _).mp hcheck).2 hbad

/-- A command whose result on the live operands is a check's error is rejected with its code (R166). -/
theorem rejects_of_raise {i : Instr} {e : ErrCode} (hi : s.Inv P) (hbusy : s.isBusy = true) (he : e ≠ .none)
    (hraise : ∀ sn : Snapshot, sn.klen = s.kekLen → sn.length = s.inLen.toNat → resultOf P i sn = .raise e []) :
    Rejects P (execIn P) i s e.code.toNat := by
  have hlive : ∀ sn left, s.phase = .busy sn left → resultOf P i sn = .raise e [] := fun sn left hp => by
    obtain ⟨hklen, -, -, hlength, -⟩ := snapshot_live hi hp
    exact hraise sn hklen hlength
  obtain ⟨sn, left, hp⟩ := isBusy_eq_true_iff.mp hbusy
  refine ⟨_, execIn_busy hp, ?fails, fun sn' left' hp' => by rw [hlive sn' left' hp', Result.raise_calls]⟩
  case fails => exact fails_complete hi hp (by rwa [hlive sn left hp]) (by rw [hlive sn left hp, Result.raise_err])

theorem rejects_badKey {i : Instr} (hi : s.Inv P) (hbusy : s.isBusy = true) (hlegal : ∀ w, i ≠ .illegal w)
    (hk : ¬ LegalKeyLength s.kekLen.toNat) : Rejects P (execIn P) i s 1 :=
  rejects_of_raise (e := .invalidKeyLength) hi hbusy (by decide) fun _ hklen _ => resultOf_badKey hlegal (hklen ▸ hk)

theorem wrap_rejects_badLength (ivSel : Bool) (hi : s.Inv P) (hbusy : s.isBusy = true)
    (hk : LegalKeyLength s.kekLen.toNat)
    (hbad : ¬ (s.inLen.toNat % 8 = 0 ∧ 16 ≤ s.inLen.toNat ∧ s.inLen.toNat / 8 ≤ P.sbMax)) :
    Rejects P (execIn P) (.wrap ivSel) s 2 :=
  rejects_of_raise (e := .invalidPlaintextLength) hi hbusy (by decide) fun _ hklen hlength =>
    wrapResult_badLength ivSel (hklen ▸ hk) (hlength ▸ hbad)

theorem unwrap_rejects_badLength (ivSel : Bool) (hi : s.Inv P) (hbusy : s.isBusy = true)
    (hk : LegalKeyLength s.kekLen.toNat)
    (hbad : ¬ (s.inLen.toNat % 8 = 0 ∧ 24 ≤ s.inLen.toNat ∧ s.inLen.toNat / 8 - 1 ≤ P.sbMax)) :
    Rejects P (execIn P) (.unwrap ivSel) s 3 :=
  rejects_of_raise (e := .invalidWrappedLength) hi hbusy (by decide) fun _ hklen hlength =>
    unwrapResult_badLength ivSel (hklen ▸ hk) (hlength ▸ hbad)

theorem wrapRejection_execIn (P : Params) : WrapRejection P (execIn P) := fun _ ivSel hi hbusy =>
  ⟨rejects_badKey hi hbusy nofun,
    fun hk _ => wrap_rejects_badLength ivSel hi hbusy hk (by omega),
    fun hk _ _ _ => wrap_rejects_badLength ivSel hi hbusy hk (by omega)⟩

/-- Settles O31: a bad key length is reported before a bad data length, and either without a cipher call. -/
theorem wrapChecksInOrder : Obligations.WrapChecksInOrder := by
  refine ⟨?_, fun P _ => wrapRejection_execIn P⟩
  rw [exec_eq]
  exact wrapRejection_execIn Config.params

theorem unwrapRejection_execIn (P : Params) : UnwrapRejection P (execIn P) := fun _ ivSel hi hbusy =>
  ⟨rejects_badKey hi hbusy nofun,
    fun hk _ => unwrap_rejects_badLength ivSel hi hbusy hk (by omega),
    fun hk _ _ _ => unwrap_rejects_badLength ivSel hi hbusy hk (by omega)⟩

/-- Settles O33: a bad key length is reported before a bad data length, and either without a cipher call. -/
theorem unwrapChecksInOrder : Obligations.UnwrapChecksInOrder := by
  refine ⟨?_, fun P _ => unwrapRejection_execIn P⟩
  rw [exec_eq]
  exact unwrapRejection_execIn Config.params

/-! Legal operands. -/

/-- The command's integrity value is the live one (R107). -/
theorem icvOf_live (ivSel : Bool) (hi : s.Inv P) (hp : s.phase = .busy sn left) : icvOf ivSel sn = s.icv ivSel := by
  obtain ⟨-, -, hiv, -, -⟩ := snapshot_live hi hp
  rw [icvOf, hiv]
  rfl

/-- The snapshot of an input that fits IBUF holds all of it (10_state.md R33). -/
theorem data_live (hi : s.Inv P) (hp : s.phase = .busy sn left) (hfits : s.inLen.toNat ≤ P.bufBytes) :
    sn.data = s.ibufBytes P s.inLen.toNat := by
  obtain ⟨-, -, -, -, hdata⟩ := snapshot_live hi hp
  rw [hdata, Nat.min_eq_left hfits]

/-- WRAP's result on legal operands is the transform's output (R109). -/
theorem wrapResult_legal (ivSel : Bool) (hcheck : wrapCheck P sn.klen sn.length = none) :
    wrapResult P ivSel sn = .success (wrapTransform P sn.key (icvOf ivSel sn) (semiblocks sn.data)).output
      (wrapTransform P sn.key (icvOf ivSel sn) (semiblocks sn.data)).calls := by
  rw [wrapResult, hcheck]

/-- UNWRAP's result on legal operands whose recovered A is the integrity value (R111). -/
theorem unwrapResult_icvMatch {ivSel : Bool} (hcheck : unwrapCheck P sn.klen sn.length = none)
    (ha : (recovered P sn).a = icvOf ivSel sn) :
    unwrapResult P ivSel sn = .success (joinSemiblocks (recovered P sn).r) (recovered P sn).calls := by
  rw [unwrapResult, hcheck]
  exact if_neg (not_not.mpr ha)

/-- UNWRAP's result on legal operands whose recovered A is another (R111). -/
theorem unwrapResult_icvMismatch {ivSel : Bool} (hcheck : unwrapCheck P sn.klen sn.length = none)
    (ha : (recovered P sn).a ≠ icvOf ivSel sn) :
    unwrapResult P ivSel sn = .raise .integrityCheckFailed (recovered P sn).calls := by
  rw [unwrapResult, hcheck]
  exact if_pos ha

/-- What U recovers from the live operands (R112). -/
theorem recovered_live (hi : s.Inv P) (hp : s.phase = .busy sn left) (h8 : 8 ≤ s.inLen.toNat)
    (hfits : s.inLen.toNat ≤ P.bufBytes) : recovered P sn =
      unwrapTransform P s.key (semiblockOf (s.ibufBytes P 8)) (semiblocks ((s.ibufBytes P s.inLen.toNat).drop 8)) := by
  obtain ⟨-, hkey, -⟩ := snapshot_live hi hp
  rw [recovered, hkey, data_live hi hp hfits, take_ibufBytes h8]

theorem wrapSuccess_execIn (P : Params) : WrapSuccess P (execIn P) := by
  intro s ivSel hi hbusy hk hmod hmin hmax
  obtain ⟨sn, left, hp⟩ := isBusy_eq_true_iff.mp hbusy
  obtain ⟨hklen, hkey, -, hlength, -⟩ := snapshot_live hi hp
  have hfits : s.inLen.toNat ≤ P.bufBytes := by rw [Params.bufBytes]; omega
  have hres := wrapResult_legal (P := P) (sn := sn) ivSel
    ((wrapCheck_eq_none_iff _ _).mpr (by rw [hklen, hlength]; exact ⟨hk, hmod, hmin, hmax⟩))
  rw [hkey, icvOf_live ivSel hi hp, data_live hi hp hfits] at hres
  refine ⟨_, _, execIn_busy hp, commits_complete hi ?noError, ?length, ?output⟩ <;> rw [resultOf, hres]
  case noError => rfl
  case output => rfl
  case length =>
    rw [Result.success_out, length_output, length_wrapTransform_r, length_semiblocks, length_ibufBytes]
    omega

/-- Settles O30: on legal operands WRAP's result is the transform's output, and COMPLETE commits it. -/
theorem wrapSucceeds : Obligations.WrapSucceeds := by
  refine ⟨?_, fun P _ => wrapSuccess_execIn P⟩
  rw [exec_eq]
  exact wrapSuccess_execIn Config.params

theorem unwrapEnd_execIn (P : Params) : UnwrapEnd P (execIn P) := by
  intro s ivSel w hi hbusy hk hmod hmin hmax hw
  obtain ⟨sn, left, hp⟩ := isBusy_eq_true_iff.mp hbusy
  obtain ⟨hklen, -, -, hlength, -⟩ := snapshot_live hi hp
  have hfits : s.inLen.toNat ≤ P.bufBytes := by rw [Params.bufBytes]; omega
  have hcheck : unwrapCheck P sn.klen sn.length = none :=
    (unwrapCheck_eq_none_iff _ _).mpr (by rw [hklen, hlength]; exact ⟨hk, hmod, hmin, hmax⟩)
  have hwlen : (joinSemiblocks w.r).length = s.inLen.toNat - 8 := by
    rw [hw, length_joinSemiblocks, length_unwrapTransform_r, length_semiblocks, List.length_drop, length_ibufBytes]
    omega
  rw [← recovered_live hi hp (by omega) hfits] at hw
  rw [← icvOf_live ivSel hi hp, hw]
  refine ⟨_, execIn_busy hp, fun ha => ⟨?commits, hw ▸ hwlen⟩, fun ha => ?fails⟩ <;> rw [resultOf]
  case commits =>
    rw [unwrapResult_icvMatch hcheck ha]
    exact commits_complete hi rfl
  case fails =>
    rw [unwrapResult_icvMismatch hcheck ha]
    exact fails_complete hi hp (by simp) rfl

/-- Settles O32: UNWRAP's result on legal operands is decided by the recovered A, and COMPLETE commits or reports it. -/
theorem unwrapEndsByIcv : Obligations.UnwrapEndsByIcv := by
  refine ⟨?_, fun P _ => unwrapEnd_execIn P⟩
  rw [exec_eq]
  exact unwrapEnd_execIn Config.params

/-! The round trip (R113). -/

/-- The first 8 bytes of a transform's output are A. -/
theorem semiblockOf_take_output (w : Work) : semiblockOf (w.output.take 8) = w.a := by
  rw [Work.output, List.take_left' (length_semiblockBytes w.a), semiblockOf_semiblockBytes]

/-- The other bytes of a transform's output are its semiblocks. -/
theorem semiblocks_drop_output (w : Work) : semiblocks (w.output.drop 8) = w.r := by
  rw [Work.output, List.drop_left' (length_semiblockBytes w.a), semiblocks_joinSemiblocks]

/-- Settles O52: UNWRAP applies U to the A and R that W made, and so recovers WRAP's integrity value and plaintext. -/
theorem plainRoundTrip : Obligations.PlainRoundTrip := by
  intro P s t u ivSel hlaw hs hbusy hk hmin hmax hmod hrun hu hubusy hklen hkek hiv hlen hin
  have hkey : u.key = s.key := by rw [State.key, hkek, hklen, State.key]
  have hicv : u.icv ivSel = s.icv ivSel := by rw [State.icv, hiv, State.icv]
  obtain ⟨t', out, hrun', hwrap, houtlen, hout⟩ := wrapSuccess_execIn P s ivSel hs hbusy hk hmod hmin (by omega)
  cases hrun'.symm.trans hrun
  rw [← houtlen, hwrap.stored] at hin
  obtain ⟨v, hunwrap, hmatch, -⟩ := unwrapEnd_execIn P u ivSel _ hu hubusy (hklen ▸ hk) (by omega) (by omega) (by omega)
    rfl
  have hfirst : u.ibufBytes P 8 = out.take 8 := by rw [← hin, take_ibufBytes (by omega)]
  obtain ⟨ha, hr⟩ := unwrapTransform_wrapTransform (fun x => (hlaw s.key (length_key hk) x).1) (s.icv ivSel)
    (semiblocks (s.ibufBytes P s.inLen.toNat))
  rw [hlen, ← houtlen, hin, hfirst, hkey, hicv, hout, semiblockOf_take_output, semiblocks_drop_output, ha, hr,
    joinSemiblocks_semiblocks _ (by rwa [length_ibufBytes])] at hmatch
  obtain ⟨hcommits, -⟩ := hmatch rfl
  have hstored := hcommits.stored
  have houtLen := hcommits.outLen
  rw [length_ibufBytes] at hstored houtLen
  exact ⟨v, hunwrap, hcommits.status, by rw [houtLen s.inLen.isLt, BitVec.ofNat_toNat, BitVec.setWidth_eq], hstored⟩

end Sys2Proof.Machine
end

section
/-! The cipher calls of a command (40_keywrap.md R114, 41_padded_keywrap.md R141). -/

namespace Sys2Proof.Machine

variable {P : Params} {sn : Snapshot} {r : Result} {d : CipherDir} {k : List Byte} {m : Nat}

/-- A result of a command that makes `m` calls in the direction `d` once its checks pass, and none before. -/
structure Result.Counted (r : Result) (d : CipherDir) (m : Nat) : Prop where
  rejected : r.err ≠ .none → r.err ≠ .integrityCheckFailed → r.calls = []
  passed : r.err = .none ∨ r.err = .integrityCheckFailed → r.calls.length = m
  dir : ∀ c ∈ r.calls, c.dir = d

/-- A check's error comes before any call (60_exceptions.md R211). -/
theorem counted_raise {e : ErrCode} (he : e ≠ .none) (hicv : e ≠ .integrityCheckFailed) :
    (Result.raise e []).Counted d m where
  rejected _ _ := rfl
  passed h := (h.elim he hicv).elim
  dir := by simp

/-- A command past its checks, by the calls it lists. -/
theorem counted_of_calls (hpassed : r.err = .none ∨ r.err = .integrityCheckFailed)
    (hcalls : r.calls.length = m ∧ ∀ c ∈ r.calls, c.dir = d ∧ c.key = k) : r.Counted d m where
  rejected h h' := (hpassed.elim h h').elim
  passed _ := hcalls.1
  dir c hc := (hcalls.2 c hc).1

/-- The error of a command's check, as its `…Check_eq_some` lemma gives it: the key-length error or, past that, the
command's data-length error. -/
theorem counted_of_check {e lengthErr : ErrCode} {keyLegal : Prop}
    (hlength : lengthErr = .invalidPlaintextLength ∨ lengthErr = .invalidWrappedLength)
    (he : (¬ keyLegal ∧ e = .invalidKeyLength) ∨ (keyLegal ∧ e = lengthErr)) : (Result.raise e []).Counted d m := by
  rcases he with ⟨-, rfl⟩ | ⟨-, rfl⟩
  · exact counted_raise (by decide) (by decide)
  · rcases hlength with rfl | rfl <;> exact counted_raise (by decide) (by decide)

theorem wrapResult_counted (ivSel : Bool) (hd : sn.data.length = min sn.length P.bufBytes) :
    (wrapResult P ivSel sn).Counted .enc (6 * (sn.length / 8)) := by
  have hb : P.bufBytes = 8 * (P.sbMax + 1) := rfl
  rcases wrapResult_cases P ivSel sn with ⟨e, hcheck, h⟩ | ⟨hcheck, h⟩ <;> rw [h]
  · exact counted_of_check (.inl rfl) (wrapCheck_eq_some hcheck)
  · obtain ⟨-, -, -, hmax⟩ := (wrapCheck_eq_none_iff _ _).mp hcheck
    have hn : (semiblocks sn.data).length = sn.length / 8 := by rw [length_semiblocks]; omega
    exact counted_of_calls (.inl rfl) (hn ▸ wrapTransform_calls ..)

/-- What UNWRAP and the multi-round UNWRAP_PAD call (R114, R141). -/
theorem recovered_calls (hd : sn.data.length / 8 = sn.length / 8) :
    (recovered P sn).calls.length = 6 * (sn.length / 8 - 1) ∧
    ∀ c ∈ (recovered P sn).calls, c.dir = .dec ∧ c.key = sn.key := by
  have hn : (semiblocks (sn.data.drop 8)).length = sn.length / 8 - 1 := by
    rw [length_semiblocks, List.length_drop]
    omega
  exact hn ▸ unwrapTransform_calls ..

theorem unwrapResult_counted (ivSel : Bool) (hd : sn.data.length = min sn.length P.bufBytes) :
    (unwrapResult P ivSel sn).Counted .dec (6 * (sn.length / 8 - 1)) := by
  have hb : P.bufBytes = 8 * (P.sbMax + 1) := rfl
  have hcalls (hcheck : unwrapCheck P sn.klen sn.length = none) := recovered_calls (P := P) (sn := sn) (by
    obtain ⟨-, -, -, hmax⟩ := (unwrapCheck_eq_none_iff _ _).mp hcheck
    omega)
  rcases unwrapResult_cases P ivSel sn with ⟨e, hcheck, h⟩ | ⟨hcheck, -, h⟩ | ⟨hcheck, -, h⟩ <;> rw [h]
  · exact counted_of_check (.inr rfl) (unwrapCheck_eq_some hcheck)
  · exact counted_of_calls (.inr rfl) (hcalls hcheck)
  · exact counted_of_calls (.inl rfl) (hcalls hcheck)

/-- WRAP_PAD makes one call for at most 8 bytes (R132), else those of W on the padded semiblocks. -/
theorem wrapPadResult_counted (hd : sn.data.length = min sn.length P.bufBytes) :
    (wrapPadResult P sn).Counted .enc (if sn.length ≤ 8 then 1 else 6 * ((sn.length + 7) / 8)) := by
  have hb : P.bufBytes = 8 * (P.sbMax + 1) := rfl
  rcases wrapPadResult_cases P sn with ⟨e, hcheck, h⟩ | ⟨hcheck, hone, h⟩ | ⟨hcheck, hmany, h⟩ <;> rw [h]
  · exact counted_of_check (.inl rfl) (wrapPadCheck_eq_some hcheck)
  · obtain ⟨-, -, -, hmax⟩ := (wrapPadCheck_eq_none_iff _ _).mp hcheck
    rw [length_pad] at hone
    rw [if_pos (by omega)]
    exact counted_of_calls (k := sn.key) (.inl rfl) (by simp)
  · obtain ⟨-, hmin, -, hmax⟩ := (wrapPadCheck_eq_none_iff _ _).mp hcheck
    rw [length_pad] at hmany
    have hn : (semiblocks (pad sn.data)).length = (sn.length + 7) / 8 := by rw [length_semiblocks, length_pad]; omega
    rw [if_neg (by omega)]
    exact counted_of_calls (.inl rfl) (hn ▸ wrapTransform_calls ..)

/-- UNWRAP_PAD makes one call for 16 bytes (R133), else those of U. -/
theorem unwrapPadResult_counted (hd : sn.data.length = min sn.length P.bufBytes) :
    (unwrapPadResult P sn).Counted .dec (if sn.length = 16 then 1 else 6 * (sn.length / 8 - 1)) := by
  have hb : P.bufBytes = 8 * (P.sbMax + 1) := rfl
  have hcalls (hcheck : unwrapPadCheck P sn.klen sn.length = none) :
      (recoverPadded P sn).2.2.length = (if sn.length = 16 then 1 else 6 * (sn.length / 8 - 1)) ∧
      ∀ c ∈ (recoverPadded P sn).2.2, c.dir = .dec ∧ c.key = sn.key := by
    obtain ⟨-, h16 | ⟨hmod, hmin, hmax⟩⟩ := (unwrapPadCheck_eq_none_iff _ _).mp hcheck
    · rw [recoverPadded_short h16, if_pos h16]
      simp
    · rw [recoverPadded_long (by omega), if_neg (by omega)]
      exact recovered_calls (by omega)
  rcases unwrapPadResult_cases P sn with ⟨e, hcheck, h⟩ | ⟨hcheck, -, h⟩ | ⟨mli, hcheck, -, h⟩ <;> rw [h]
  · exact counted_of_check (.inr rfl) (unwrapPadCheck_eq_some hcheck)
  · exact counted_of_calls (.inr rfl) (hcalls hcheck)
  · exact counted_of_calls (.inl rfl) (hcalls hcheck)

/-- Settles O42, by the command the snapshot's word decodes to. -/
theorem cipherCallCounts : Obligations.CipherCallCounts := by
  intro P sn n r _ hd
  have hr : r = resultOf P (decode sn.word) sn := rfl
  rcases decode_cases sn.word with ⟨-, ⟨hdec, hop⟩ | ⟨hdec, hop⟩ | ⟨hdec, hop⟩ | ⟨hdec, hop⟩⟩ | ⟨-, hdec⟩ <;>
    rw [hdec] at hr
  case inl.inl =>
    have h : r.Counted .enc (6 * (n / 8)) := hr ▸ wrapResult_counted _ hd
    exact ⟨h.rejected, fun hpassed => by simpa [hop, h.passed hpassed] using h.dir⟩
  case inl.inr.inl =>
    have h : r.Counted .dec (6 * (n / 8 - 1)) := hr ▸ unwrapResult_counted _ hd
    exact ⟨h.rejected, fun hpassed => by simpa [hop, h.passed hpassed] using h.dir⟩
  case inl.inr.inr.inl =>
    have h : r.Counted .enc (if n ≤ 8 then 1 else 6 * ((n + 7) / 8)) := hr ▸ wrapPadResult_counted hd
    refine ⟨h.rejected, fun hpassed => ?_⟩
    have hshort (hn : n ≤ 8) : r.calls.length = 1 := by rw [h.passed hpassed, if_pos hn]
    have hlong (hn : 9 ≤ n) : r.calls.length = 6 * ((n + 7) / 8) := by rw [h.passed hpassed, if_neg (by omega)]
    simpa [hop] using ⟨hshort, hlong, h.dir⟩
  case inl.inr.inr.inr =>
    have h : r.Counted .dec (if n = 16 then 1 else 6 * (n / 8 - 1)) := hr ▸ unwrapPadResult_counted hd
    refine ⟨h.rejected, fun hpassed => ?_⟩
    have hshort (hn : n = 16) : r.calls.length = 1 := by rw [h.passed hpassed, if_pos hn]
    have hlong (hn : 24 ≤ n) : r.calls.length = 6 * (n / 8 - 1) := by rw [h.passed hpassed, if_neg (by omega)]
    simpa [hop] using ⟨hshort, hlong, h.dir⟩
  case inr =>
    have h : r.Counted .enc 0 := hr ▸ counted_raise (by decide) (by decide)
    have herr : r.err = .illegalCommand := hr ▸ rfl
    exact ⟨h.rejected, fun hpassed => by simp [herr] at hpassed⟩

end Sys2Proof.Machine
end

section
/-! The AIV, the padding and AIVCHECK (41_padded_keywrap.md R130, R131, R138). -/

namespace Sys2Proof.Machine

variable {aiv : Semiblock} {padded p : List Byte} {m : Nat}

/-- AIVCHECK's last test: no byte from `m` on differs from 0x00. -/
theorem any_drop_ne_zero_eq_false_iff :
    (padded.drop m).any (· != 0) = false ↔ ∀ q, m ≤ q → q < padded.length → padded[q]? = some 0 := by
  rw [List.any_eq_false]
  constructor
  · intro h q hmq hq
    have hmem : padded[q] ∈ padded.drop m := List.mem_drop_iff_getElem.mpr ⟨q - m, by omega, by congr 1; omega⟩
    rw [List.getElem?_eq_getElem hq]
    simpa using h _ hmem
  · intro h x hx
    obtain ⟨i, hi, rfl⟩ := List.mem_drop_iff_getElem.mp hx
    have hzero := h (i + m) (by omega) (by omega)
    rw [List.getElem?_eq_getElem (by omega)] at hzero
    simpa [Nat.add_comm] using hzero

theorem aivCheck_eq_some_iff : aivCheck aiv padded = some m ↔ AivPasses aiv padded m := by
  dsimp only [aivCheck]
  constructor
  · intro h
    split_ifs at h with hhead hrange hpad hzero
    obtain rfl := Option.some.inj h
    exact ⟨not_not.mp hhead, rfl, hrange.1, hrange.2, hpad,
      any_drop_ne_zero_eq_false_iff.mp (Bool.not_eq_true _ ▸ hzero)⟩
  · rintro ⟨hhead, rfl, hmin, hmax, hpad, hzero⟩
    rw [if_neg (not_ne_iff.mpr (show _ = aivPrefix from hhead)), if_neg (not_not.mpr ⟨hmin, hmax⟩),
      if_neg (not_not.mpr hpad), if_neg (by rw [any_drop_ne_zero_eq_false_iff.mpr hzero]; decide)]

theorem aivCheck_eq_none_iff : aivCheck aiv padded = none ↔ ∀ m, ¬ AivPasses aiv padded m := by
  simp only [Option.eq_none_iff_forall_ne_some, ne_eq, aivCheck_eq_some_iff]

/-- Settles O50: the branches of AIVCHECK are the tests of R138, and the padding test bounds MLI from below. -/
theorem aivCheckExact : Obligations.AivCheckExact := by
  refine fun aiv padded m => ⟨aivCheck_eq_some_iff, fun n hn hpass => ?_⟩
  obtain ⟨-, -, hmin, hmax, hpad, -⟩ := aivCheck_eq_some_iff.mp hpass
  omega

/-- No AIV is ICV1: they differ in the upper half (R142). -/
theorem aivOf_ne_icv1 (m : Nat) : aivOf m ≠ icv1 := fun h =>
  absurd (aivOf_head m) (by rw [h]; decide)

theorem not_aivPasses_icv1 : ¬ AivPasses icv1 padded m := fun h => absurd h.head (by decide)

/-- The bytes of the AIV (R130). -/
theorem semiblockBytes_aivOf (m : Nat) : semiblockBytes (aivOf m) = [0xA6, 0x59, 0x59, 0xA6] ++ beBytes 4 m := by
  have hread : semiblockOf ([0xA6, 0x59, 0x59, 0xA6] ++ beBytes 4 m) = aivOf m := by
    apply BitVec.eq_of_toNat_eq
    rw [semiblockOf, uintBe_append, length_beBytes, uintBe_beBytes, aivOf, BitVec.toNat_append, BitVec.toNat_ofNat,
      BitVec.toNat_ofNat, ← Nat.shiftLeft_add_eq_or_of_lt (by omega), Nat.shiftLeft_eq]
    simp [uintBe, aivPrefix]
    omega
  rw [← hread, semiblockBytes_semiblockOf _ (by simp)]

/-- Settles O51, from the length of the padding and the bytes of the AIV. -/
theorem paddingAndAivAsSpecified : Obligations.PaddingAndAivAsSpecified := by
  intro p hmin hmax
  have hlen := length_pad p
  refine ⟨rfl, by omega, by omega, by omega, by omega, semiblockBytes_aivOf _, ?_, aivOf_head _,
    aivOf_mli _ (by omega)⟩
  rw [uintBe_beBytes, Nat.mod_eq_of_lt (by omega)]

/-- Key material of at most 8 bytes is padded to one semiblock (R132). -/
theorem pad_short (hmin : 1 ≤ p.length) (hmax : p.length ≤ 8) : pad p = p ++ List.replicate (8 - p.length) 0 := by
  rw [pad_eq, show (8 - p.length % 8) % 8 = 8 - p.length by omega]

theorem take_pad (p : List Byte) : (pad p).take p.length = p := List.take_left

/-- AIVCHECK passes on the AIV and the padded bytes WRAP_PAD starts from (R140). -/
theorem aivPasses_pad (hmin : 1 ≤ p.length) (hmax : p.length ≤ 2 ^ 32 - 1) :
    AivPasses (aivOf p.length) (pad p) p.length := by
  have hlen := length_pad p
  refine ⟨aivOf_head _, (aivOf_mli _ (by omega)).symm, hmin, by omega, by omega, fun q hmq hq => ?_⟩
  rw [pad, List.length_append, List.length_replicate] at hq
  rw [pad, List.getElem?_append_right hmq, List.getElem?_replicate_of_lt (by omega)]

end Sys2Proof.Machine
end

section
/-! WRAP_PAD and UNWRAP_PAD (41_padded_keywrap.md R132 to R140): their checks, and how they complete on legal
operands. -/

namespace Sys2Proof.Machine

variable {P : Params} {s : State} {sn : Snapshot} {left m : Nat}

/-! Operands that are not legal. -/

/-- WRAP_PAD's error on a bad length (R134). -/
theorem wrapPadResult_badLength (hk : LegalKeyLength sn.klen.toNat)
    (hbad : ¬ (1 ≤ sn.length ∧ sn.length ≤ 2 ^ 32 - 1 ∧ (sn.length + 7) / 8 ≤ P.sbMax)) :
    wrapPadResult P sn = .raise .invalidPlaintextLength [] := by
  rcases wrapPadResult_cases P sn with ⟨e, hcheck, hres⟩ | ⟨hcheck, -⟩ | ⟨hcheck, -⟩
  · rcases wrapPadCheck_eq_some hcheck with ⟨hbadKey, -⟩ | ⟨-, rfl⟩
    · exact absurd hk hbadKey
    · exact hres
  all_goals exact absurd ((wrapPadCheck_eq_none_iff _ _).mp hcheck).2 hbad

/-- UNWRAP_PAD's error on a bad length (R136). -/
theorem unwrapPadResult_badLength (hk : LegalKeyLength sn.klen.toNat)
    (hbad : ¬ (sn.length = 16 ∨ (sn.length % 8 = 0 ∧ 24 ≤ sn.length ∧ sn.length / 8 - 1 ≤ P.sbMax))) :
    unwrapPadResult P sn = .raise .invalidWrappedLength [] := by
  rcases unwrapPadResult_cases P sn with ⟨e, hcheck, hres⟩ | ⟨hcheck, -⟩ | ⟨mli, hcheck, -⟩
  · rcases unwrapPadCheck_eq_some hcheck with ⟨hbadKey, -⟩ | ⟨-, rfl⟩
    · exact absurd hk hbadKey
    · exact hres
  all_goals exact absurd ((unwrapPadCheck_eq_none_iff _ _).mp hcheck).2 hbad

theorem wrapPad_rejects_badLength (hi : s.Inv P) (hbusy : s.isBusy = true) (hk : LegalKeyLength s.kekLen.toNat)
    (hbad : ¬ (1 ≤ s.inLen.toNat ∧ s.inLen.toNat ≤ 2 ^ 32 - 1 ∧ (s.inLen.toNat + 7) / 8 ≤ P.sbMax)) :
    Rejects P (execIn P) .wrapPad s 2 :=
  rejects_of_raise (e := .invalidPlaintextLength) hi hbusy (by decide) fun _ hklen hlength =>
    wrapPadResult_badLength (hklen ▸ hk) (hlength ▸ hbad)

theorem unwrapPad_rejects_badLength (hi : s.Inv P) (hbusy : s.isBusy = true) (hk : LegalKeyLength s.kekLen.toNat)
    (hbad : ¬ (s.inLen.toNat = 16 ∨
      (s.inLen.toNat % 8 = 0 ∧ 24 ≤ s.inLen.toNat ∧ s.inLen.toNat / 8 - 1 ≤ P.sbMax))) :
    Rejects P (execIn P) .unwrapPad s 3 :=
  rejects_of_raise (e := .invalidWrappedLength) hi hbusy (by decide) fun _ hklen hlength =>
    unwrapPadResult_badLength (hklen ▸ hk) (hlength ▸ hbad)

theorem wrapPadRejection_execIn (P : Params) : WrapPadRejection P (execIn P) := fun _ hi hbusy =>
  ⟨rejects_badKey hi hbusy nofun,
    fun hk _ => wrapPad_rejects_badLength hi hbusy hk (by omega),
    fun hk _ _ _ => wrapPad_rejects_badLength hi hbusy hk (by omega)⟩

/-- Settles O35: a bad key length is reported before a bad data length, and either without a cipher call. -/
theorem wrapPadChecksInOrder : Obligations.WrapPadChecksInOrder := by
  refine ⟨?_, fun P _ => wrapPadRejection_execIn P⟩
  rw [exec_eq]
  exact wrapPadRejection_execIn Config.params

theorem unwrapPadRejection_execIn (P : Params) : UnwrapPadRejection P (execIn P) := fun _ hi hbusy =>
  ⟨rejects_badKey hi hbusy nofun,
    fun hk _ => unwrapPad_rejects_badLength hi hbusy hk (by omega),
    fun hk _ _ _ => unwrapPad_rejects_badLength hi hbusy hk (by omega)⟩

/-- Settles O37: a bad key length is reported before a bad data length, and either without a cipher call. -/
theorem unwrapPadChecksInOrder : Obligations.UnwrapPadChecksInOrder := by
  refine ⟨?_, fun P _ => unwrapPadRejection_execIn P⟩
  rw [exec_eq]
  exact unwrapPadRejection_execIn Config.params

/-! Legal operands. -/

/-- WRAP_PAD's result on at most 8 bytes is one enciphered block (R132). -/
theorem wrapPadResult_short (hcheck : wrapPadCheck P sn.klen sn.length = none) (hdata : sn.data.length = sn.length)
    (h8 : sn.length ≤ 8) : wrapPadResult P sn =
      .success (blockBytes (P.enc sn.key (blockPair (aivOf sn.length) (semiblockOf (pad sn.data)))))
        [⟨.enc, sn.key, blockPair (aivOf sn.length) (semiblockOf (pad sn.data))⟩] := by
  obtain ⟨-, hmin, -⟩ := (wrapPadCheck_eq_none_iff _ _).mp hcheck
  rw [wrapPadResult, hcheck]
  exact if_pos (by rw [length_pad]; omega)

/-- WRAP_PAD's result on 9 bytes and more is the wrap transform's output (R135). -/
theorem wrapPadResult_long (hcheck : wrapPadCheck P sn.klen sn.length = none) (hdata : sn.data.length = sn.length)
    (h9 : 9 ≤ sn.length) : wrapPadResult P sn =
      .success (wrapTransform P sn.key (aivOf sn.length) (semiblocks (pad sn.data))).output
        (wrapTransform P sn.key (aivOf sn.length) (semiblocks (pad sn.data))).calls := by
  rw [wrapPadResult, hcheck]
  exact if_neg (by rw [length_pad]; omega)

/-- WRAP_PAD on legal operands succeeds with one semiblock more than the padded bytes have (R139). -/
theorem wrapPadResult_legal (hcheck : wrapPadCheck P sn.klen sn.length = none) (hdata : sn.data.length = sn.length) :
    (wrapPadResult P sn).err = .none ∧ (wrapPadResult P sn).out.length = 8 * ((sn.length + 7) / 8) + 8 := by
  obtain ⟨-, hmin, -⟩ := (wrapPadCheck_eq_none_iff _ _).mp hcheck
  rcases Nat.lt_or_ge 8 sn.length with hlong | hshort
  · rw [wrapPadResult_long hcheck hdata hlong, Result.success_out, length_output, length_wrapTransform_r,
      length_semiblocks, length_pad]
    exact ⟨rfl, by omega⟩
  · rw [wrapPadResult_short hcheck hdata hshort, Result.success_out, length_blockBytes]
    exact ⟨rfl, by omega⟩

theorem wrapPadSuccess_execIn (P : Params) : WrapPadSuccess P (execIn P) := by
  intro s hi hbusy hk hmin h32 hmax
  obtain ⟨sn, left, hp⟩ := isBusy_eq_true_iff.mp hbusy
  obtain ⟨hklen, hkey, -, hlength, -⟩ := snapshot_live hi hp
  have hdata := data_live hi hp (by rw [Params.bufBytes]; omega)
  have hdatalen : sn.data.length = sn.length := by rw [hdata, hlength, length_ibufBytes]
  have hcheck : wrapPadCheck P sn.klen sn.length = none :=
    (wrapPadCheck_eq_none_iff _ _).mpr (by rw [hklen, hlength]; exact ⟨hk, hmin, h32, hmax⟩)
  obtain ⟨hok, hout⟩ := wrapPadResult_legal hcheck hdatalen
  refine ⟨_, _, execIn_busy hp, commits_complete hi hok, hlength ▸ hout, fun hshort => ?short, fun hlong => ?long⟩ <;>
    rw [resultOf]
  case short =>
    rw [wrapPadResult_short hcheck hdatalen (by omega), pad_short (by omega) (by omega), hdatalen, hkey, hlength, hdata]
    rfl
  case long =>
    rw [wrapPadResult_long hcheck hdatalen (by omega), pad_eq, hdatalen, hkey, hlength, hdata]
    rfl

/-- Settles O34: on legal operands WRAP_PAD's result is one block or the transform's output, and COMPLETE commits it. -/
theorem wrapPadSucceeds : Obligations.WrapPadSucceeds := by
  refine ⟨?_, fun P _ => wrapPadSuccess_execIn P⟩
  rw [exec_eq]
  exact wrapPadSuccess_execIn Config.params

/-- UNWRAP_PAD's result where AIVCHECK passes on what it recovers (R138). -/
theorem unwrapPadResult_aivPasses (hcheck : unwrapPadCheck P sn.klen sn.length = none)
    (hpass : AivPasses (recoverPadded P sn).1 (recoverPadded P sn).2.1 m) :
    unwrapPadResult P sn = .success ((recoverPadded P sn).2.1.take m) (recoverPadded P sn).2.2 := by
  simp only [unwrapPadResult, hcheck, aivCheck_eq_some_iff.mpr hpass]

/-- UNWRAP_PAD's result where AIVCHECK fails on what it recovers (R138). -/
theorem unwrapPadResult_aivFails (hcheck : unwrapPadCheck P sn.klen sn.length = none)
    (hfail : ∀ m, ¬ AivPasses (recoverPadded P sn).1 (recoverPadded P sn).2.1 m) :
    unwrapPadResult P sn = .raise .integrityCheckFailed (recoverPadded P sn).2.2 := by
  simp only [unwrapPadResult, hcheck, aivCheck_eq_none_iff.mpr hfail]

/-- UNWRAP_PAD in flight on legal operands completes by AIVCHECK on what it recovers (R137). -/
theorem unwrapPad_completes (hi : s.Inv P) (hp : s.phase = .busy sn left)
    (hcheck : unwrapPadCheck P sn.klen sn.length = none) :
    ∃ t, execIn P .unwrapPad s = .next t ∧
      (∀ m, AivPasses (recoverPadded P sn).1 (recoverPadded P sn).2.1 m →
        s.Commits t ((recoverPadded P sn).2.1.take m) ∧ ((recoverPadded P sn).2.1.take m).length = m) ∧
      ((∀ m, ¬ AivPasses (recoverPadded P sn).1 (recoverPadded P sn).2.1 m) → s.Fails t 4) := by
  refine ⟨_, execIn_busy hp, fun m hpass => ⟨?commits, List.length_take_of_le hpass.atMostAll⟩, fun hfail => ?fails⟩ <;>
    rw [resultOf]
  case commits =>
    rw [unwrapPadResult_aivPasses hcheck hpass]
    exact commits_complete hi rfl
  case fails =>
    rw [unwrapPadResult_aivFails hcheck hfail]
    exact fails_complete hi hp (by simp) rfl

/-- UNWRAP_PAD of 16 bytes fits IBUF where a command may hold a semiblock (10_state.md R30). -/
theorem unwrapPadEnd_execIn (hsb : 1 ≤ P.sbMax) : UnwrapPadEnd P (execIn P) := by
  intro s aiv padded hi hbusy hk hoperands
  obtain ⟨sn, left, hp⟩ := isBusy_eq_true_iff.mp hbusy
  obtain ⟨hklen, hkey, -, hlength, -⟩ := snapshot_live hi hp
  have hfits : s.inLen.toNat ≤ P.bufBytes := by rw [Params.bufBytes]; omega
  have hcheck : unwrapPadCheck P sn.klen sn.length = none :=
    (unwrapPadCheck_eq_none_iff _ _).mpr (by rw [hklen, hlength]; exact ⟨hk, by omega⟩)
  have hcompletes := unwrapPad_completes hi hp hcheck
  rcases hoperands with ⟨h16, rfl, rfl⟩ | ⟨-, hmin, -, rfl, rfl⟩
  · rwa [recoverPadded_short (hlength.trans h16), hkey, data_live hi hp hfits, h16] at hcompletes
  · rwa [recoverPadded_long (by omega), recovered_live hi hp (by omega) hfits] at hcompletes

/-- Settles O36: UNWRAP_PAD's result on legal operands is decided by AIVCHECK, and COMPLETE commits or reports it. -/
theorem unwrapPadEndsByAivCheck : Obligations.UnwrapPadEndsByAivCheck := by
  refine ⟨?_, fun P hP => unwrapPadEnd_execIn (by omega)⟩
  rw [exec_eq]
  exact unwrapPadEnd_execIn (by have := config_params_legal; omega)

end Sys2Proof.Machine
end

section
/-! The commands on each other's outputs under the cipher law (40_keywrap.md R101): the padded round trip
(41_padded_keywrap.md R140), and the plain and the padded scheme keep apart (R142). -/

namespace Sys2Proof.Machine

variable {P : Params} {sn un : Snapshot} {out : List Byte}

/-- `un` holds the key of `sn` and the input `out`. -/
structure Snapshot.Receives (un sn : Snapshot) (out : List Byte) : Prop where
  klen : un.klen = sn.klen
  key : un.key = sn.key
  data : un.data = out
  length : un.length = out.length

theorem Snapshot.Receives.length_wrapPad (h : un.Receives sn (wrapPadResult P sn).out)
    (hcheck : wrapPadCheck P sn.klen sn.length = none) (hdata : sn.data.length = sn.length) :
    un.length = 8 * ((sn.length + 7) / 8) + 8 := h.length.trans (wrapPadResult_legal hcheck hdata).2

/-- U recovers what W put out (R104). -/
theorem recovered_output {a : Semiblock} {r : List Semiblock} (hdec : ∀ x, P.dec sn.key (P.enc sn.key x) = x)
    (h : un.Receives sn (wrapTransform P sn.key a r).output) : (recovered P un).a = a ∧ (recovered P un).r = r := by
  rw [recovered, h.key, h.data, semiblockOf_take_output, semiblocks_drop_output]
  exact unwrapTransform_wrapTransform hdec a r

/-- U recovers the AIV and the padded semiblocks from what WRAP_PAD gives for 9 bytes and more. -/
theorem recovered_wrapPad_long (hdec : ∀ x, P.dec sn.key (P.enc sn.key x) = x)
    (hcheck : wrapPadCheck P sn.klen sn.length = none) (hdata : sn.data.length = sn.length) (h9 : 9 ≤ sn.length)
    (h : un.Receives sn (wrapPadResult P sn).out) :
    (recovered P un).a = aivOf sn.length ∧ joinSemiblocks (recovered P un).r = pad sn.data := by
  rw [wrapPadResult_long hcheck hdata h9] at h
  obtain ⟨ha, hr⟩ := recovered_output hdec h
  exact ⟨ha, by rw [hr, joinSemiblocks_semiblocks _ (by rw [length_pad]; omega)]⟩

/-- On either path UNWRAP_PAD recovers the AIV and the padded bytes that WRAP_PAD started from (R132, R133). -/
theorem recoverPadded_wrapPad (hdec : ∀ x, P.dec sn.key (P.enc sn.key x) = x)
    (hcheck : wrapPadCheck P sn.klen sn.length = none) (hdata : sn.data.length = sn.length)
    (h : un.Receives sn (wrapPadResult P sn).out) :
    (recoverPadded P un).1 = aivOf sn.length ∧ (recoverPadded P un).2.1 = pad sn.data := by
  obtain ⟨-, hmin, -⟩ := (wrapPadCheck_eq_none_iff _ _).mp hcheck
  have hlen := h.length_wrapPad hcheck hdata
  rcases Nat.lt_or_ge 8 sn.length with hlong | hshort
  · rw [recoverPadded_long (by omega)]
    exact recovered_wrapPad_long hdec hcheck hdata hlong h
  · have hout := h.data
    rw [wrapPadResult_short hcheck hdata hshort, Result.success_out] at hout
    rw [recoverPadded_short (by omega), h.key, hout, blockOf_blockBytes, hdec, msb64_blockPair, lsb64_blockPair,
      semiblockBytes_semiblockOf _ (by rw [length_pad]; omega)]
    exact ⟨rfl, rfl⟩

/-- UNWRAP_PAD of WRAP_PAD's output is the key material (R140). -/
theorem unwrapPadResult_wrapPad (hdec : ∀ x, P.dec sn.key (P.enc sn.key x) = x)
    (hcheck : wrapPadCheck P sn.klen sn.length = none) (hdata : sn.data.length = sn.length)
    (h : un.Receives sn (wrapPadResult P sn).out) :
    (unwrapPadResult P un).err = .none ∧ (unwrapPadResult P un).out = sn.data := by
  obtain ⟨hk, hmin, h32, hmax⟩ := (wrapPadCheck_eq_none_iff _ _).mp hcheck
  have hlen := h.length_wrapPad hcheck hdata
  have hcheck' : unwrapPadCheck P un.klen un.length = none :=
    (unwrapPadCheck_eq_none_iff _ _).mpr ⟨h.klen ▸ hk, by omega⟩
  obtain ⟨haiv, hpadded⟩ := recoverPadded_wrapPad hdec hcheck hdata h
  have hpass : AivPasses (recoverPadded P un).1 (recoverPadded P un).2.1 sn.data.length := by
    rw [haiv, hpadded, ← hdata]
    exact aivPasses_pad (by omega) (by omega)
  rw [unwrapPadResult_aivPasses hcheck' hpass, Result.success_out, hpadded, take_pad]
  exact ⟨rfl, rfl⟩

/-- Settles O53: the later command's snapshot receives what WRAP_PAD put out, and COMPLETE commits what UNWRAP_PAD makes
of it. -/
theorem paddedRoundTrip : Obligations.PaddedRoundTrip := by
  intro P s t u hlaw hs hsbusy hk hmin h32 hmax hrun hu hubusy hklen hkek hlen hin
  obtain ⟨sn, sleft, hsp⟩ := isBusy_eq_true_iff.mp hsbusy
  obtain ⟨un, uleft, hup⟩ := isBusy_eq_true_iff.mp hubusy
  obtain ⟨hsklen, hskey, -, hslength, -⟩ := snapshot_live hs hsp
  obtain ⟨huklen, hukey, -, hulength, -⟩ := snapshot_live hu hup
  have hsdata := data_live hs hsp (by rw [Params.bufBytes]; omega)
  have hdata : sn.data.length = sn.length := by rw [hsdata, hslength, length_ibufBytes]
  have hcheck : wrapPadCheck P sn.klen sn.length = none :=
    (wrapPadCheck_eq_none_iff _ _).mpr (by rw [hsklen, hslength]; exact ⟨hk, hmin, h32, by omega⟩)
  obtain ⟨hok, hout⟩ := wrapPadResult_legal hcheck hdata
  cases (execIn_busy hsp).symm.trans hrun
  have hwrap : s.Commits (complete P (resultOf P .wrapPad sn) s) (wrapPadResult P sn).out := commits_complete hs hok
  have hulen : u.inLen.toNat = (wrapPadResult P sn).out.length := by
    rw [hlen, hwrap.outLen (by omega), BitVec.toNat_ofNat, Nat.mod_eq_of_lt (by omega)]
  rw [hulen, hwrap.stored, ← hulen, ← data_live hu hup (by rw [Params.bufBytes]; omega)] at hin
  have hreceives : un.Receives sn (wrapPadResult P sn).out :=
    ⟨by rw [huklen, hklen, hsklen], by rw [hukey, State.key, hkek, hklen, hskey, State.key], hin,
      hulength.trans hulen⟩
  obtain ⟨hunwrapped, hrecovered⟩ := unwrapPadResult_wrapPad
    (fun x => (hlaw sn.key (hskey ▸ length_key hk) x).1) hcheck hdata hreceives
  have hcommits := commits_complete (r := resultOf P .unwrapPad un) hu hunwrapped
  rw [show (resultOf P .unwrapPad un).out = s.ibufBytes P s.inLen.toNat from hrecovered.trans hsdata] at hcommits
  have hstored := hcommits.stored
  have houtLen := hcommits.outLen
  rw [length_ibufBytes] at hstored houtLen
  exact ⟨_, execIn_busy hup, hcommits.status, by rw [houtLen s.inLen.isLt, BitVec.ofNat_toNat, BitVec.setWidth_eq],
    hstored⟩

/-! The two schemes apart (R142). -/

/-- A WRAP_PAD that succeeded passed its checks. -/
theorem wrapPadCheck_of_success (hok : (wrapPadResult P sn).err = .none) : wrapPadCheck P sn.klen sn.length = none := by
  rcases wrapPadResult_cases P sn with ⟨e, hcheck, hres⟩ | ⟨hcheck, -⟩ | ⟨hcheck, -⟩
  · rw [hres, Result.raise_err] at hok
    rcases wrapPadCheck_eq_some hcheck with ⟨-, rfl⟩ | ⟨-, rfl⟩ <;> exact absurd hok (by decide)
  all_goals exact hcheck

/-- A WRAP that succeeded passed its checks. -/
theorem wrapCheck_of_success {ivSel : Bool} (hok : (wrapResult P ivSel sn).err = .none) :
    wrapCheck P sn.klen sn.length = none := by
  rcases wrapResult_cases P ivSel sn with ⟨e, hcheck, hres⟩ | ⟨hcheck, -⟩
  · rw [hres, Result.raise_err] at hok
    rcases wrapCheck_eq_some hcheck with ⟨-, rfl⟩ | ⟨-, rfl⟩ <;> exact absurd hok (by decide)
  · exact hcheck

/-- UNWRAP refuses a WRAP_PAD output of 16 bytes for its length (R110). -/
theorem unwrapResult_wrapPad_short (ivSel : Bool) (hcheck : wrapPadCheck P sn.klen sn.length = none)
    (hdata : sn.data.length = sn.length) (h8 : sn.length ≤ 8) (h : un.Receives sn (wrapPadResult P sn).out) :
    unwrapResult P ivSel un = .raise .invalidWrappedLength [] := by
  obtain ⟨hk, -⟩ := (wrapPadCheck_eq_none_iff _ _).mp hcheck
  have hlen := h.length_wrapPad hcheck hdata
  exact unwrapResult_badLength ivSel (h.klen ▸ hk) (by omega)

/-- UNWRAP of a longer WRAP_PAD output recovers the AIV, so it ends by whether its own integrity value is that AIV. -/
theorem unwrapResult_wrapPad_long (ivSel : Bool) (hdec : ∀ x, P.dec sn.key (P.enc sn.key x) = x)
    (hcheck : wrapPadCheck P sn.klen sn.length = none) (hdata : sn.data.length = sn.length) (h9 : 9 ≤ sn.length)
    (h : un.Receives sn (wrapPadResult P sn).out) :
    (aivOf sn.length = icvOf ivSel un → (unwrapResult P ivSel un).err = .none ∧
      (unwrapResult P ivSel un).out = pad sn.data) ∧
    (aivOf sn.length ≠ icvOf ivSel un → (unwrapResult P ivSel un).err = .integrityCheckFailed) := by
  obtain ⟨hk, -, -, hmax⟩ := (wrapPadCheck_eq_none_iff _ _).mp hcheck
  have hlen := h.length_wrapPad hcheck hdata
  have hcheck' : unwrapCheck P un.klen un.length = none :=
    (unwrapCheck_eq_none_iff _ _).mpr ⟨h.klen ▸ hk, by omega, by omega, by omega⟩
  obtain ⟨ha, hr⟩ := recovered_wrapPad_long hdec hcheck hdata h9 h
  refine ⟨fun hicv => ?accepted, fun hicv => ?refused⟩
  case accepted =>
    rw [unwrapResult_icvMatch hcheck' (ha.trans hicv)]
    exact ⟨rfl, hr⟩
  case refused => rw [unwrapResult_icvMismatch hcheck' (ha ▸ hicv), Result.raise_err]

/-- UNWRAP_PAD of an output of WRAP with IV_SEL = 0 recovers ICV1, on which AIVCHECK fails. -/
theorem unwrapPadResult_wrap (hdec : ∀ x, P.dec sn.key (P.enc sn.key x) = x)
    (hcheck : wrapCheck P sn.klen sn.length = none) (hdata : sn.data.length = sn.length)
    (h : un.Receives sn (wrapResult P false sn).out) : (unwrapPadResult P un).err = .integrityCheckFailed := by
  obtain ⟨hk, hmod, hmin, hmax⟩ := (wrapCheck_eq_none_iff _ _).mp hcheck
  rw [wrapResult_legal false hcheck, Result.success_out] at h
  have hlen := h.length
  rw [length_output, length_wrapTransform_r, length_semiblocks] at hlen
  have hcheck' : unwrapPadCheck P un.klen un.length = none :=
    (unwrapPadCheck_eq_none_iff _ _).mpr ⟨h.klen ▸ hk, by omega⟩
  have ha : (recoverPadded P un).1 = icv1 := by
    rw [recoverPadded_long (by omega)]
    exact (recovered_output hdec h).1
  rw [unwrapPadResult_aivFails hcheck' fun m => ha ▸ not_aivPasses_icv1, Result.raise_err]

/-- Settles O54: each scheme's unwrap recovers the other's integrity value, and the AIV is not ICV1. -/
theorem plainAndPaddedDisjoint : Obligations.PlainAndPaddedDisjoint := by
  intro P sn un hlaw hk hdata hklen hkek hlen
  have hdec : ∀ x, P.dec sn.key (P.enc sn.key x) = x := fun x => (hlaw sn.key hk x).1
  refine ⟨fun hok hout => ?padded, fun hok hout => ?plain⟩
  all_goals have hreceives : un.Receives sn _ :=
    ⟨hklen, by rw [Snapshot.key, hklen, hkek, Snapshot.key], hout, hlen.trans (congrArg _ hout)⟩
  case plain => exact unwrapPadResult_wrap hdec (wrapCheck_of_success hok) hdata hreceives
  case padded =>
    have hcheck := wrapPadCheck_of_success hok
    refine ⟨?icv1, fun h9 hiv => ?aiv⟩
    case icv1 =>
      split_ifs with h8
      · rw [unwrapResult_wrapPad_short false hcheck hdata h8 hreceives, Result.raise_err]
      · exact (unwrapResult_wrapPad_long false hdec hcheck hdata (not_le.mp h8) hreceives).2 (aivOf_ne_icv1 _)
    case aiv =>
      obtain ⟨haccepted, -⟩ := unwrapResult_wrapPad_long true hdec hcheck hdata h9 hreceives
      rw [← hdata, ← pad_eq]
      exact haccepted hiv.symm

end Sys2Proof.Machine
end

section
/-! IBUF at IN_LEN and above reaches no command (41_padded_keywrap.md R135, 42_host_commands.md R161). -/

namespace Sys2Proof.Machine

variable {P : Params} {s s' : State}

theorem ibufBytes_congr {n : Nat} (h : ∀ q, q < n → s'.ibufAt P q = s.ibufAt P q) :
    s'.ibufBytes P n = s.ibufBytes P n :=
  List.map_congr_left fun q hq => h q (List.mem_range.mp hq)

/-- The snapshot reads the operand registers and IBUF below IN_LEN (10_state.md R33). -/
theorem capture_congr (w : Word) (hklen : s'.kekLen = s.kekLen) (hkek : s'.kek = s.kek) (hiv : s'.iv = s.iv)
    (hlen : s'.inLen = s.inLen) (hbytes : ∀ q, q < s.inLen.toNat → s'.ibufAt P q = s.ibufAt P q) :
    capture P w s' = capture P w s := by
  rw [capture, hklen, hkek, hiv, hlen, ibufBytes_congr fun q hq => hbytes q (by omega), capture]

/-- Settles O44: a CMD write in either state puts the captured snapshot in flight, and the two captures are equal. -/
theorem bytesBeyondInputUnused : Obligations.BytesBeyondInputUnused := by
  intro P w s s' hs hs' hklen hkek hiv hlen hbytes
  rw [serveBus_cmdWrite hs, serveBus_cmdWrite hs']
  refine ⟨capture P w s, P.latency s.accepted, P.latency s'.accepted, rfl, ?_⟩
  rw [State.answer_phase, accept_phase, capture_congr w hklen hkek hiv hlen hbytes]

end Sys2Proof.Machine
end

section
/-! ACCEPT (42_host_commands.md R160): what a CMD write while IDLE does, and what the host reads while BUSY; and what a
write that the bus accepts while BUSY does (R163, R164). -/

namespace Sys2Proof.Machine

variable {P : Params} {s : State}

/-- STATUS right after acceptance. -/
theorem statusWord_accept (P : Params) (w : Word) (s : State) : (accept P w s).statusWord = 0x00000001 := by
  have hbusy : (accept P w s).isBusy = true := rfl
  rw [State.statusWord, hbusy, accept_done, accept_err]
  rfl

/-- While BUSY a read of OUT_LEN_LO and of OUT_LEN_HI gives 0, since no result is shown. -/
theorem answers_serveBus_outLenRead (hno : s.NoResult) :
    (serveBus P (.memRead .reg 0x20 4) s).answers = ⟨.ok, some 0⟩ :: s.answers ∧
    (serveBus P (.memRead .reg 0x24 4) s).answers = ⟨.ok, some 0⟩ :: s.answers := by
  have hlo : regRead (regAt 0x20) s = 0 := hno.outLenLo
  have hhi : regRead (regAt 0x24) s = 0 := hno.outLenHi
  rw [answers_serveBus_regRead rfl (by decide), answers_serveBus_regRead rfl (by decide), hlo, hhi]
  exact ⟨rfl, rfl⟩

/-- Settles O14: the write is ACCEPT of its word, and a BUSY state under the invariant shows no result. -/
theorem cmdWriteAccepts : Obligations.CmdWriteAccepts := by
  refine ⟨fun P s w hs => ?accepted, fun P s hi hbusy => ?reads⟩
  case accepted =>
    simp only [serveBus_cmdWrite hs]
    exact ⟨capture P w s, P.latency s.accepted, rfl, statusWord_accept P w s, fun _ => rfl, rfl, rfl, rfl, rfl, rfl, rfl⟩
  case reads =>
    obtain ⟨sn, left, hp⟩ := isBusy_eq_true_iff.mp hbusy
    obtain ⟨-, -, hno, -⟩ := hi.busy sn left hp
    obtain ⟨houtLo, houtHi⟩ := answers_serveBus_outLenRead (P := P) hno
    refine ⟨?status, houtLo, houtHi, fun off hoff => ?obuf⟩
    case status =>
      have hstatus : regRead (regAt 0x04) s = 0x00000001 := statusWord_busy hi hp
      rw [answers_serveBus_regRead rfl (by decide), hstatus]
    case obuf =>
      rw [answers_serveBus_obufRead hoff, hno.obufAt_eq_zero]
      rfl

/-- Settles O15: such a write is lost, and only flags the host. -/
theorem busyWritesIgnored : Obligations.BusyWritesIgnored :=
  fun _ _ _ _ _ v hbusy hok => serveBus_write_lost hok hbusy v

end Sys2Proof.Machine
end

section
/-! Host events that neither issue a command nor reset the engine (42_host_commands.md R163, R169): they leave the phase
and what the last command shows. -/

namespace Sys2Proof.Machine

variable {P : Params} {s t u : State}

theorem State.SameResult.trans (h : s.SameResult t) (h' : t.SameResult u) : s.SameResult u :=
  ⟨h'.done.trans h.done, h'.err.trans h.err, h'.outLenLo.trans h.outLenLo, h'.outLenHi.trans h.outLenHi,
    h'.obuf.trans h.obuf⟩

/-- The phase and what the last command shows are the same in both states. -/
structure State.SameView (s t : State) : Prop where
  phase : t.phase = s.phase
  result : s.SameResult t

theorem State.SameView.refl (s : State) : s.SameView s := ⟨rfl, rfl, rfl, rfl, rfl, rfl⟩

theorem State.SameView.trans (h : s.SameView t) (h' : t.SameView u) : s.SameView u :=
  ⟨h'.phase.trans h.phase, h.result.trans h'.result⟩

theorem State.SameView.answer (h : s.SameView t) (resp : BusResponse) (data : Option Word) :
    s.SameView (t.answer resp data) :=
  h.trans ⟨rfl, rfl, rfl, rfl, rfl, rfl⟩

theorem State.SameView.statusWord_eq (h : s.SameView t) : t.statusWord = s.statusWord := by
  rw [State.statusWord, State.isBusy, h.phase, h.result.done, h.result.err, State.statusWord, State.isBusy]

theorem State.SameEngine.sameView (h : s.SameEngine t) : s.SameView t := by
  rw [h]
  exact ⟨rfl, rfl, rfl, rfl, rfl, rfl⟩

/-- A write that is performed shows nothing new, unless it is one of CMD. -/
theorem sameView_busWrite {sp : Space} {off : Nat} (hcmd : sp = .reg → off ≠ 0) (v : Word) :
    s.SameView (busWrite P sp off v s) := by
  cases sp with
  | reg =>
    have hreg : regAt off ≠ .cmd := mt (regAt_eq_cmd_iff off).mp (hcmd rfl)
    exact ⟨regWrite_phase hreg v, sameResult_regWrite hreg v⟩
  | ibuf | obuf => exact ⟨rfl, rfl, rfl, rfl, rfl, rfl⟩

/-- A write while BUSY is lost; one while IDLE is performed. -/
theorem sameView_serveBus {tr : Transaction} (h : s.isBusy = true ∨ ∀ v, tr ≠ .memWrite .reg 0x00 4 v) :
    s.SameView (serveBus P tr s) := by
  cases tr with
  | memRead sp off width => exact (readsHaveNoSideEffect P s sp off width).1.sameView
  | memWrite sp off width v =>
    cases hok : accessOk P sp off width with
    | false =>
      rw [serveBus_write_bad hok]
      exact (sameEngine_flag_answer ..).sameView
    | true =>
      cases hbusy : s.isBusy with
      | true =>
        rw [serveBus_write_lost hok hbusy]
        exact (sameEngine_flag_answer ..).sameView
      | false =>
        have hcmd : sp = .reg → off ≠ 0 := by
          rintro rfl rfl
          obtain ⟨-, -, rfl⟩ := accessOk_reg_iff.mp hok
          exact h.elim (by simp [hbusy]) (fun hne => hne v rfl)
        rw [serveBus_write_performed hok hbusy]
        exact (sameView_busWrite hcmd v).answer .ok none

theorem sameView_serveAll {es : List HostEvent}
    (hes : ∀ e ∈ es, e ≠ .rst ∧ ∀ v, e ≠ .bus (.memWrite .reg 0x00 4 v)) : s.SameView (serveAll P es s) := by
  induction es generalizing s with
  | nil => exact .refl s
  | cons e es ih =>
    rw [List.forall_mem_cons] at hes
    obtain ⟨⟨hrst, hcmd⟩, hrest⟩ := hes
    cases e with
    | rst => exact absurd rfl hrst
    | bus tr => exact (sameView_serveBus (.inr fun v h => hcmd v (congrArg _ h))).trans (ih hrest)

/-- Settles O18: each of the events leaves the phase, STATUS, OUT_LEN and OBUF. -/
theorem resultsPersist : Obligations.ResultsPersist := by
  intro P es s hs hes
  have h : s.SameView (serveAll P es s) := sameView_serveAll hes
  exact ⟨h.phase.trans hs, h.statusWord_eq, h.result.outLen_eq, h.result.obufAt_eq⟩

end Sys2Proof.Machine
end

section
/-! The step (10_state.md R20; 42_host_commands.md R160 to R168): which command it runs, that every command in flight
completes, and that the result depends on the snapshot alone. -/

namespace Sys2Proof.Machine

variable {P : Params} {s s' t t' : State} {sn : Snapshot} {left : Nat} {i : Instr}

/-- The word in the snapshot decides the command, whichever well-formed instruction it encodes. -/
theorem step_due (hp : s.phase = .busy sn 0) (hwf : i.wf = true) (hword : sn.word = encode i) :
    step s = exec i s := by
  rw [step, stepWith_due hp, hword, decode_encode hwf]

/-- The row's word in flight (log 9). -/
theorem withFetchWord_toNat (s : State) (w : Word) : s.withFetchWord 32 w.toNat = acceptIn Config.params w 0 s := by
  rw [State.withFetchWord, putInFlight, Nat.mod_eq_of_lt w.isLt, BitVec.ofNat_toNat, BitVec.setWidth_eq]

/-- Settles O22: the host's turn by the oldest pending event; the command due by its word. -/
theorem stepRunsDecodedCommand : Obligations.StepRunsDecodedCommand := by
  refine ⟨fun _ => stepWith_idle, fun _ _ _ => stepWith_waiting, fun P s hin => ?nothing, fun _ _ _ _ => hostTurn_cons,
    fun _ _ _ => hostTurn_cons, fun _ _ _ => step_due, fun s i hwf => ?fetched⟩
  case nothing => rw [hostTurn, hin]
  case fetched =>
    rw [withFetchWord_toNat]
    exact ⟨step_due rfl hwf rfl, _, rfl, rfl⟩

/-- Settles O29: `exec` in IDLE accepts the word itself, and completes the snapshot it took. -/
theorem issueInIdleCompletes : Obligations.IssueInIdleCompletes := by
  intro i s hs
  refine ⟨_, ?_, (exec_eq_execIn i _).trans (execIn_busy (accept_phase ..)), complete_phase .., complete_done ..⟩
  rw [exec_eq_execIn, execIn_eq, inFlight_idle hs]

/-- COMPLETE of the command that is due (R165). -/
theorem stepWith_execIn_due (hp : s.phase = .busy sn 0) :
    stepWith P (execIn P) s = .next (complete P (execResult P sn) s) :=
  (stepWith_due hp).trans (execIn_busy hp)

theorem busWrite_inbox (P : Params) (sp : Space) (off : Nat) (v : Word) (s : State) :
    (busWrite P sp off v s).inbox = s.inbox := by
  cases sp with
  | reg => simp only [busWrite]; cases regAt off <;> rfl
  | ibuf | obuf => rfl

theorem serveBus_inbox (P : Params) (tr : Transaction) (s : State) : (serveBus P tr s).inbox = s.inbox := by
  cases tr with
  | memRead sp off width => rcases serveBus_read P sp off width s with ⟨-, h⟩ | ⟨-, h⟩ <;> rw [h]
  | memWrite sp off width v =>
    rcases serveBus_write P sp off width v s with ⟨-, h⟩ | ⟨-, -, h⟩ | ⟨-, -, h⟩ <;> rw [h]
    exact busWrite_inbox P sp off v s

/-- Whatever the host does in its turn, a reset apart, the command in flight stays in flight (R163). -/
theorem hostTurn_busy (hp : s.phase = .busy sn left) (hrst : s.inbox.head? ≠ some .rst) :
    (hostTurn P s).phase = .busy sn left ∧ (hostTurn P s).inbox = s.inbox.tail := by
  cases hin : s.inbox with
  | nil =>
    rw [hostTurn, hin]
    exact ⟨hp, hin⟩
  | cons e rest =>
    rw [hostTurn_cons hin]
    cases e with
    | rst => exact absurd (by rw [hin]; rfl) hrst
    | bus tr =>
      have hbusy : State.isBusy { s with inbox := rest } = true := isBusy_eq_true_iff.mpr ⟨sn, left, hp⟩
      exact ⟨(sameView_serveBus (.inl hbusy)).phase.trans hp, serveBus_inbox P tr _⟩

/-- Settles O28, by induction on the host turns left: each keeps the snapshot in flight, and then COMPLETE is due. -/
theorem everyCommandCompletes : Obligations.EveryCommandCompletes := by
  intro s sn left hp hrst
  induction left generalizing s with
  | zero =>
    have hstep : step s = .next (complete Config.params (execResult Config.params sn) s) :=
      (step_eq_stepWith s).trans (stepWith_execIn_due hp)
    exact ⟨_, core_run_succ hstep, complete_phase .., complete_done .., complete_err ..⟩
  | succ left ih =>
    have hhead : s.inbox.head? ≠ some .rst ∧ ∀ e ∈ s.inbox.tail.take left, e ≠ .rst := by
      cases hin : s.inbox with
      | nil => simp
      | cons e rest =>
        rw [hin, List.take_succ_cons, List.forall_mem_cons] at hrst
        exact ⟨by simpa using hrst.1, hrst.2⟩
    obtain ⟨hfirst, hlater⟩ := hhead
    obtain ⟨hphase, hinbox⟩ := hostTurn_busy (P := Config.params) (s := { s with phase := .busy sn left }) rfl hfirst
    rw [core_run_succ (stepWith_waiting hp)]
    exact ih _ hphase (hinbox ▸ hlater)

/-- From states that show no result, COMPLETE of one result shows the same (log 10 apart). -/
theorem sameResult_complete {r : Result} (hno : s.NoResult) (hno' : s'.NoResult) (hlen : r.out.length < 2 ^ 64) :
    (complete P r s).SameResult (complete P r s') := by
  by_cases he : r.err = .none
  · rw [complete_success he, complete_success he]
    refine ⟨rfl, rfl, rfl, ?outLenHi, ?obuf⟩
    case outLenHi => simp only [State.setStatus_outLenHi, commitSuccess_outLenHi, outLenHiOf, if_pos hlen]
    case obuf => simp [hno.obuf, hno'.obuf]
  · rw [complete_failure he, complete_failure he]
    exact ⟨rfl, rfl, hno'.outLenLo.trans hno.outLenLo.symm, hno'.outLenHi.trans hno.outLenHi.symm,
      hno'.obuf.trans hno.obuf.symm⟩

/-- Settles O43: both steps are COMPLETE of EXEC on the one snapshot. -/
theorem equalSnapshotsEqualResults : Obligations.EqualSnapshotsEqualResults := by
  intro P s s' t t' sn hp hp' hno hno' hlen h h'
  obtain rfl : complete P (execResult P sn) s = t := by simpa [stepWith_execIn_due hp] using h
  obtain rfl : complete P (execResult P sn) s' = t' := by simpa [stepWith_execIn_due hp'] using h'
  have hsame := sameResult_complete (P := P) hno' hno hlen
  have hview : State.SameView _ _ := ⟨(complete_phase ..).trans (complete_phase ..).symm, hsame⟩
  exact ⟨hview.statusWord_eq, hsame.obuf, hsame.outLen_eq⟩

end Sys2Proof.Machine
end

section
/-! What a command writes (42_host_commands.md R165, R166; 60_exceptions.md R212). -/

namespace Sys2Proof.Machine

variable {P : Params} {s : State}

/-- Under the invariant OBUF shows the result from cell 0 on, and reads as before above it. -/
theorem obuf_complete {r : Result} (hi : s.Inv P) (hout : r.err ≠ .none → r.out = []) :
    (complete P r s).obufBytes r.out.length = r.out ∧
      ∀ q, r.out.length ≤ q → (complete P r s).obufAt q = s.obufAt q := by
  by_cases he : r.err = .none
  · have hcommits := commits_complete hi he
    exact ⟨hcommits.stored, hcommits.beyond⟩
  · rw [complete_failure he, hout he]
    exact ⟨rfl, fun _ _ => rfl⟩

theorem commandFrame_execIn (P : Params) : CommandFrame P (execIn P) := by
  intro i s t sn left hp hrun r
  obtain rfl : complete P r s = t := by simpa [execIn_busy hp] using hrun
  have hout : r.err ≠ .none → r.out = [] := out_eq_nil_of_err i
  refine ⟨complete_frame P r s, ibufAt_execIn hrun, fun hi => obuf_complete hi hout, fun he => ?success,
    fun he => ⟨hout he, ?failure⟩⟩
  case success =>
    rw [complete_success he]
    exact ⟨rfl, outLen_commitSuccess (s := s)⟩
  case failure =>
    rw [complete_failure he]
    exact ⟨rfl, rfl, rfl⟩

/-- Settles O39: every command is COMPLETE of its result, and a result with an error has no output. -/
theorem commandsWriteOnlyResults : Obligations.CommandsWriteOnlyResults := by
  refine ⟨?_, fun P _ => commandFrame_execIn P⟩
  rw [exec_eq]
  exact commandFrame_execIn Config.params

end Sys2Proof.Machine
end

section
/-! Which error a command reports, and its cipher calls (60_exceptions.md R203 to R206, R210, R211). -/

namespace Sys2Proof.Machine

variable {P : Params} {sn : Snapshot}

/-! The data lengths. -/

/-- The cases of INVALID_PLAINTEXT_LENGTH (R203): the data length of WRAP and of WRAP_PAD. -/
def Snapshot.BadPlaintextLength (P : Params) (sn : Snapshot) : Prop :=
  (opField sn.word = 1 ∧ (sn.length % 8 ≠ 0 ∨ sn.length < 16 ∨ P.sbMax < sn.length / 8)) ∨
  (opField sn.word = 3 ∧ (sn.length = 0 ∨ 2 ^ 32 - 1 < sn.length ∨ P.sbMax < (sn.length + 7) / 8))

/-- The cases of INVALID_WRAPPED_LENGTH (R204): the data length of UNWRAP and of UNWRAP_PAD. -/
def Snapshot.BadWrappedLength (P : Params) (sn : Snapshot) : Prop :=
  (opField sn.word = 2 ∧ (sn.length % 8 ≠ 0 ∨ sn.length < 24 ∨ P.sbMax < sn.length / 8 - 1)) ∨
  (opField sn.word = 4 ∧ (¬ (sn.length = 16 ∨ (sn.length % 8 = 0 ∧ 24 ≤ sn.length)) ∨
    (24 ≤ sn.length ∧ P.sbMax < sn.length / 8 - 1)))

/-- A word that unwraps, and an input length that UNWRAP or UNWRAP_PAD takes (R110, R136). -/
def Snapshot.LegalWrappedLength (P : Params) (sn : Snapshot) : Prop :=
  (opField sn.word = 2 ∧ sn.length % 8 = 0 ∧ 24 ≤ sn.length ∧ sn.length / 8 - 1 ≤ P.sbMax) ∨
  (opField sn.word = 4 ∧ (sn.length = 16 ∨ (sn.length % 8 = 0 ∧ 24 ≤ sn.length ∧ sn.length / 8 - 1 ≤ P.sbMax)))

/-- No word has both: the four commands differ in the op field. -/
theorem Snapshot.BadPlaintextLength.not_badWrappedLength (h : sn.BadPlaintextLength P) : ¬ sn.BadWrappedLength P := by
  rcases h with ⟨hop, -⟩ | ⟨hop, -⟩ <;> simp [Snapshot.BadWrappedLength, hop]

/-! The first error that applies. -/

/-- The command of a legal word is its op field's (30_encoding.md R70). -/
theorem decode_of_opField {w : Word} (h : legal w = true) :
    (opField w = 1 → decode w = .wrap (ivSelField w)) ∧ (opField w = 2 → decode w = .unwrap (ivSelField w)) ∧
    (opField w = 3 → decode w = .wrapPad) ∧ (opField w = 4 → decode w = .unwrapPad) := by
  rcases decode_cases w with ⟨-, ⟨hdec, hop⟩ | ⟨hdec, hop⟩ | ⟨hdec, hop⟩ | ⟨hdec, hop⟩⟩ | ⟨hill, -⟩
  case inr => simp [h] at hill
  all_goals simp [hdec, hop]

theorem decode_ne_illegal {w : Word} (h : legal w = true) (v : Word) : decode w ≠ .illegal v := by
  rcases decode_cases w with ⟨-, ⟨hdec, -⟩ | ⟨hdec, -⟩ | ⟨hdec, -⟩ | ⟨hdec, -⟩⟩ | ⟨hill, -⟩
  case inr => simp [h] at hill
  all_goals simp [hdec]

theorem execResult_illegal (h : legal sn.word = false) : execResult P sn = .raise .illegalCommand [] := by
  rw [execResult, decode_of_not_legal h]
  rfl

theorem execResult_badKey (h : legal sn.word = true) (hk : ¬ LegalKeyLength sn.klen.toNat) :
    execResult P sn = .raise .invalidKeyLength [] :=
  resultOf_badKey (decode_ne_illegal h) hk

theorem execResult_badPlaintextLength (h : legal sn.word = true) (hk : LegalKeyLength sn.klen.toNat)
    (hbad : sn.BadPlaintextLength P) : execResult P sn = .raise .invalidPlaintextLength [] := by
  obtain ⟨hwrap, -, hwrapPad, -⟩ := decode_of_opField h
  rcases hbad with ⟨hop, hlen⟩ | ⟨hop, hlen⟩
  · rw [execResult, hwrap hop]
    exact wrapResult_badLength _ hk (by omega)
  · rw [execResult, hwrapPad hop]
    exact wrapPadResult_badLength hk (by omega)

theorem execResult_badWrappedLength (h : legal sn.word = true) (hk : LegalKeyLength sn.klen.toNat)
    (hbad : sn.BadWrappedLength P) : execResult P sn = .raise .invalidWrappedLength [] := by
  obtain ⟨-, hunwrap, -, hunwrapPad⟩ := decode_of_opField h
  rcases hbad with ⟨hop, hlen⟩ | ⟨hop, hlen⟩
  · rw [execResult, hunwrap hop]
    exact unwrapResult_badLength _ hk (by omega)
  · rw [execResult, hunwrapPad hop]
    exact unwrapPadResult_badLength hk (by omega)

/-- Past the checks only the integrity check of the two unwrapping commands is left to fail (R205). -/
theorem execResult_err_of_checks (h : legal sn.word = true) (hk : LegalKeyLength sn.klen.toNat)
    (hplain : ¬ sn.BadPlaintextLength P) (hwrapped : ¬ sn.BadWrappedLength P) :
    (execResult P sn).err = .none ∨ ((execResult P sn).err = .integrityCheckFailed ∧ sn.LegalWrappedLength P) := by
  rw [execResult]
  rcases decode_cases sn.word with ⟨-, ⟨hdec, hop⟩ | ⟨hdec, hop⟩ | ⟨hdec, hop⟩ | ⟨hdec, hop⟩⟩ | ⟨hill, -⟩
  case inr => simp [h] at hill
  all_goals rw [hdec, resultOf]
  case inl.inl =>
    have hlen : ¬ _ := fun hbad => hplain (.inl ⟨hop, hbad⟩)
    have hcheck := (wrapCheck_eq_none_iff (P := P) sn.klen sn.length).mpr ⟨hk, by omega⟩
    exact .inl (by rw [wrapResult_legal _ hcheck, Result.success_err])
  case inl.inr.inl =>
    have hlen : ¬ _ := fun hbad => hwrapped (.inl ⟨hop, hbad⟩)
    have hcheck := (unwrapCheck_eq_none_iff (P := P) sn.klen sn.length).mpr ⟨hk, by omega⟩
    rcases unwrapResult_cases P (ivSelField sn.word) sn with ⟨e, hfail, -⟩ | ⟨-, -, hres⟩ | ⟨-, -, hres⟩
    · simp [hcheck] at hfail
    · exact .inr ⟨by rw [hres, Result.raise_err], .inl ⟨hop, by omega⟩⟩
    · exact .inl (by rw [hres, Result.success_err])
  case inl.inr.inr.inl =>
    have hlen : ¬ _ := fun hbad => hplain (.inr ⟨hop, hbad⟩)
    have hcheck := (wrapPadCheck_eq_none_iff (P := P) sn.klen sn.length).mpr ⟨hk, by omega⟩
    rcases wrapPadResult_cases P sn with ⟨e, hfail, -⟩ | ⟨-, -, hres⟩ | ⟨-, -, hres⟩
    · simp [hcheck] at hfail
    all_goals exact .inl (by rw [hres, Result.success_err])
  case inl.inr.inr.inr =>
    have hlen : ¬ _ := fun hbad => hwrapped (.inr ⟨hop, hbad⟩)
    have hcheck := (unwrapPadCheck_eq_none_iff (P := P) sn.klen sn.length).mpr ⟨hk, by omega⟩
    rcases unwrapPadResult_cases P sn with ⟨e, hfail, -⟩ | ⟨-, -, hres⟩ | ⟨mli, -, -, hres⟩
    · simp [hcheck] at hfail
    · exact .inr ⟨by rw [hres, Result.raise_err], .inr ⟨hop, by omega⟩⟩
    · exact .inl (by rw [hres, Result.success_err])

/-- EXEC by the first error that applies (R210); each but the last case ends before any cipher call (R211). -/
theorem execResult_cases (P : Params) (sn : Snapshot) :
    (legal sn.word = false ∧ execResult P sn = .raise .illegalCommand []) ∨
    (legal sn.word = true ∧ ¬ LegalKeyLength sn.klen.toNat ∧ execResult P sn = .raise .invalidKeyLength []) ∨
    (legal sn.word = true ∧ LegalKeyLength sn.klen.toNat ∧ sn.BadPlaintextLength P ∧
      execResult P sn = .raise .invalidPlaintextLength []) ∨
    (legal sn.word = true ∧ LegalKeyLength sn.klen.toNat ∧ sn.BadWrappedLength P ∧
      execResult P sn = .raise .invalidWrappedLength []) ∨
    (legal sn.word = true ∧ LegalKeyLength sn.klen.toNat ∧ ¬ sn.BadPlaintextLength P ∧ ¬ sn.BadWrappedLength P ∧
      ((execResult P sn).err = .none ∨
        ((execResult P sn).err = .integrityCheckFailed ∧ sn.LegalWrappedLength P))) := by
  cases h : legal sn.word with
  | false => exact .inl ⟨rfl, execResult_illegal h⟩
  | true =>
    by_cases hk : LegalKeyLength sn.klen.toNat
    case neg => exact .inr (.inl ⟨rfl, hk, execResult_badKey h hk⟩)
    by_cases hplain : sn.BadPlaintextLength P
    case pos => exact .inr (.inr (.inl ⟨rfl, hk, hplain, execResult_badPlaintextLength h hk hplain⟩))
    by_cases hwrapped : sn.BadWrappedLength P
    case pos => exact .inr (.inr (.inr (.inl ⟨rfl, hk, hwrapped, execResult_badWrappedLength h hk hwrapped⟩)))
    have hpassed := execResult_err_of_checks h hk hplain hwrapped
    exact .inr (.inr (.inr (.inr ⟨rfl, hk, hplain, hwrapped, hpassed⟩)))

/-- A check's error precedes every cipher call (R211). -/
theorem calls_of_rejected (herr : (execResult P sn).err ≠ .none)
    (hicv : (execResult P sn).err ≠ .integrityCheckFailed) : (execResult P sn).calls = [] := by
  rcases execResult_cases P sn with ⟨-, hres⟩ | ⟨-, -, hres⟩ | ⟨-, -, -, hres⟩ | ⟨-, -, -, hres⟩ | ⟨-, -, -, -, hpassed⟩
  case inr.inr.inr.inr => exact absurd hpassed (by simp [herr, hicv])
  all_goals rw [hres, Result.raise_calls]

/-- Settles O40, by the first error that applies. -/
theorem errorsInPriorityOrder : Obligations.ErrorsInPriorityOrder := by
  intro P sn n err
  change _ ∧ _ ∧ (_ ↔ _ ∧ _ ∧ sn.BadPlaintextLength P) ∧ (_ ↔ _ ∧ _ ∧ sn.BadWrappedLength P) ∧
    (_ → _ ∧ _ ∧ sn.LegalWrappedLength P) ∧ _
  rcases execResult_cases P sn with ⟨hl, hres⟩ | ⟨hl, hk, hres⟩ | ⟨hl, hk, hbad, hres⟩ | ⟨hl, hk, hbad, hres⟩ |
    ⟨hl, hk, hplain, hwrapped, hpassed⟩
  · simp [err, hres, hl]
  · simp [err, hres, hl, hk]
  · simp [err, hres, hl, hk, hbad, hbad.not_badWrappedLength]
  · have hplain : ¬ sn.BadPlaintextLength P := fun h => h.not_badWrappedLength hbad
    simp [err, hres, hl, hk, hbad, hplain]
  · rcases hpassed with herr | ⟨herr, hlegal⟩
    · simp [err, herr, hl, hk, hplain, hwrapped]
    · simp [err, herr, hl, hk, hplain, hwrapped, hlegal]

/-! The key of every cipher call (R211). -/

/-- Both transforms and both shortcuts call the cipher under the command's key (40_keywrap.md R100). -/
theorem calls_key (i : Instr) : ∀ c ∈ (resultOf P i sn).calls, c.key = sn.key := by
  have hwrap (a : Semiblock) (p : List Semiblock) : ∀ c ∈ (wrapTransform P sn.key a p).calls, c.key = sn.key :=
    fun c hc => ((wrapTransform_calls P sn.key a p).2 c hc).2
  have hunwrap : ∀ c ∈ (recovered P sn).calls, c.key = sn.key :=
    fun c hc => ((unwrapTransform_calls P sn.key _ _).2 c hc).2
  have hpadded : ∀ c ∈ (recoverPadded P sn).2.2, c.key = sn.key := by
    by_cases h16 : sn.length = 16
    · simp [recoverPadded_short h16]
    · rwa [recoverPadded_long h16]
  cases i <;> rw [resultOf]
  case wrap ivSel =>
    rcases wrapResult_cases P ivSel sn with ⟨e, -, h⟩ | ⟨-, h⟩ <;> rw [h]
    · simp
    · exact hwrap _ _
  case unwrap ivSel =>
    rcases unwrapResult_cases P ivSel sn with ⟨e, -, h⟩ | ⟨-, -, h⟩ | ⟨-, -, h⟩ <;> rw [h]
    · simp
    all_goals exact hunwrap
  case wrapPad =>
    rcases wrapPadResult_cases P sn with ⟨e, -, h⟩ | ⟨-, -, h⟩ | ⟨-, -, h⟩ <;> rw [h]
    · simp
    · simp
    · exact hwrap _ _
  case unwrapPad =>
    rcases unwrapPadResult_cases P sn with ⟨e, -, h⟩ | ⟨-, -, h⟩ | ⟨mli, -, -, h⟩ <;> rw [h]
    · simp
    all_goals exact hpadded
  case illegal w => simp [illegalResult]

/-- Only a command with a legal key length gets as far as a call. -/
theorem legalKeyLength_of_mem_calls {c : CipherCall} (hc : c ∈ (execResult P sn).calls) :
    LegalKeyLength sn.klen.toNat := by
  rcases execResult_cases P sn with ⟨-, h⟩ | ⟨-, -, h⟩ | ⟨-, hk, -⟩ | ⟨-, hk, -⟩ | ⟨-, hk, -⟩
  · simp [h] at hc
  · simp [h] at hc
  all_goals exact hk

/-- Settles O41: a check's error precedes every call, and the calls past the checks take the command's key. -/
theorem eagerValidation : Obligations.EagerValidation := by
  intro P sn hlen
  refine ⟨calls_of_rejected, fun c hc => ?_⟩
  have hkey : c.key = sn.kek.take sn.klen.toNat := calls_key _ c hc
  have hk := legalKeyLength_of_mem_calls hc
  rw [hkey, List.length_take_of_le (by omega)]
  exact ⟨rfl, hk⟩

end Sys2Proof.Machine
end

section
/-! Reset (70_reset_and_hazards.md R240, R241, R243), and the IDLE engine at rest (R242). -/

namespace Sys2Proof.Machine

variable {P : Params} {s : State}

/-- Where the command in flight is not due, the step is the host's: one with a reset pending resets the engine. -/
theorem stepWith_rst {run : Run} {rest : List HostEvent} (hin : s.inbox = .rst :: rest)
    (hdue : ∀ sn, s.phase ≠ .busy sn 0) :
    ∃ u : State, stepWith P run s = .next (resetEngine u) ∧ u.resets = s.resets ∧ u.inbox = rest := by
  rcases hp : s.phase with _ | ⟨sn, _ | left⟩
  · exact ⟨{ s with inbox := rest }, (stepWith_idle hp).trans (congrArg _ (hostTurn_cons hin)), rfl, rfl⟩
  · exact absurd hp (hdue sn)
  · refine ⟨{ s with phase := .busy sn left, inbox := rest }, ?_, rfl, rfl⟩
    rw [stepWith_waiting hp, hostTurn_cons (by exact hin), serve]

/-- Settles O7: whichever state the host's turn resets, `resetEngine` forgets all of it but its events and counters. -/
theorem resetEventAbortsCommand : Obligations.ResetEventAbortsCommand := by
  intro P run s rest hin hdue
  obtain ⟨u, hstep, hresets, hinbox⟩ := stepWith_rst (P := P) (run := run) hin hdue
  refine ⟨resetEngine u, hstep, rfl, statusWord_beforeDone (inv_resetEngine P u) rfl rfl, rfl, rfl,
    BitVec.zero_append_zero, BitVec.zero_append_zero, BitVec.zero_append_zero, fun _ => rfl, fun q => ?draw, hinbox⟩
  case draw =>
    rw [← hresets]
    rfl

/-- Settles O6: the configuration whose every draw is the byte `b` shows it, with the least SB_MAX of R9. -/
theorem ibufUnspecifiedAfterReset : Obligations.IbufUnspecifiedAfterReset :=
  ⟨fun _ _ => rfl, fun _ b =>
    ⟨{ Config.params with sbMax := 2, ibufDraw := fun _ _ => b }, ⟨le_refl 2, by norm_num⟩, rfl⟩⟩

/-- Settles O23: the host's turn with no event pending. -/
theorem idleEngineRests : Obligations.IdleEngineRests := by
  intro s hs hin
  rw [step, stepWith_idle hs, hostTurn, hin]

/-- Settles O26: the state after reset is the one a reset event makes of it, but for the counter of resets. -/
theorem resetMeetsInvariant : Obligations.ResetMeetsInvariant :=
  fun P => inv_of_sameResult_idle (inv_resetEngine P State.reset) ⟨rfl, rfl, rfl, rfl, rfl⟩ rfl (memoryForm_nil _ _)

end Sys2Proof.Machine
end

section
/-! KEK_LEN after reset (70_reset_and_hazards.md R240): only the host's write of it while IDLE changes it from 0, and
until then every legal command completes with INVALID_KEY_LENGTH. -/

namespace Sys2Proof.Machine

variable {P : Params} {s t : State} {sn : Snapshot} {left : Nat}

theorem State.SameEngine.kekLen_eq (h : s.SameEngine t) : t.kekLen = s.kekLen := by
  rw [h]

theorem regWrite_kekLen {r : Reg} (hr : r ≠ .kekLen) (v : Word) : (regWrite P r v s).kekLen = s.kekLen := by
  cases r with
  | kekLen => exact absurd rfl hr
  | _ => rfl

theorem busWrite_kekLen {sp : Space} {off : Nat} (hoff : sp = .reg → off ≠ 0x08) (v : Word) :
    (busWrite P sp off v s).kekLen = s.kekLen := by
  cases sp with
  | reg => exact regWrite_kekLen (mt (regAt_eq_kekLen_iff off).mp (hoff rfl)) v
  | ibuf | obuf => rfl

/-- KEK_LEN is kept by every transaction while BUSY, and while IDLE by every one but its own write. -/
theorem serveBus_kekLen {tr : Transaction} (h : s.isBusy = true ∨ ∀ v, tr ≠ .memWrite .reg 0x08 4 v) :
    (serveBus P tr s).kekLen = s.kekLen := by
  cases tr with
  | memRead sp off width => exact (readsHaveNoSideEffect P s sp off width).1.kekLen_eq
  | memWrite sp off width v =>
    rcases serveBus_write P sp off width v s with ⟨-, hrun⟩ | ⟨-, -, hrun⟩ | ⟨hok, hbusy, hrun⟩ <;> rw [hrun]
    have hoff : sp = .reg → off ≠ 0x08 := by
      rintro rfl rfl
      obtain ⟨-, -, rfl⟩ := accessOk_reg_iff.mp hok
      exact h.elim (by simp [hbusy]) (fun hne => hne v rfl)
    exact busWrite_kekLen hoff v

theorem hostTurn_kekLen_zero (hk : s.kekLen = 0)
    (h : s.isBusy = true ∨ ∀ v, s.inbox.head? ≠ some (.bus (.memWrite .reg 0x08 4 v))) :
    (hostTurn P s).kekLen = 0 := by
  cases hin : s.inbox with
  | nil => rwa [hostTurn, hin]
  | cons e rest =>
    rw [hostTurn_cons hin]
    cases e with
    | rst => rfl
    | bus tr =>
      have hother : State.isBusy { s with inbox := rest } = true ∨ ∀ v, tr ≠ .memWrite .reg 0x08 4 v :=
        h.imp id fun hne v htr => hne v (by rw [hin, htr]; rfl)
      exact (serveBus_kekLen hother).trans hk

theorem complete_kekLen (P : Params) (r : Result) (s : State) : (complete P r s).kekLen = s.kekLen := by
  rw [complete_frame]

/-- KEK_LEN stays 0 over every step but the host's write of it while IDLE. -/
theorem stepWith_kekLen_zero (hk : s.kekLen = 0)
    (hno : s.phase = .idle → ∀ v, s.inbox.head? ≠ some (.bus (.memWrite .reg 0x08 4 v)))
    (h : stepWith P (execIn P) s = .next t) : t.kekLen = 0 := by
  rcases hp : s.phase with _ | ⟨sn, _ | left⟩
  · rw [stepWith_idle hp] at h
    cases h
    exact hostTurn_kekLen_zero hk (.inr (hno hp))
  · rw [stepWith_execIn_due hp] at h
    cases h
    exact (complete_kekLen ..).trans hk
  · rw [stepWith_waiting hp] at h
    cases h
    exact hostTurn_kekLen_zero hk (.inl rfl)

/-- A legal command in flight whose key length is not legal completes with STATUS = 2 | (1 << 8) (60_exceptions.md
R202). -/
theorem execIn_badKey_status (hp : s.phase = .busy sn left) (hlegal : legal sn.word = true)
    (hk : ¬ LegalKeyLength sn.klen.toNat) :
    ∃ t, execIn P (decode sn.word) s = .next t ∧ t.statusWord = 0x00000102 := by
  refine ⟨_, execIn_busy hp, ?_⟩
  rw [statusWord_done (complete_phase ..) (complete_done ..), complete_err,
    resultOf_badKey (decode_ne_illegal hlegal) hk]
  rfl

theorem not_legalKeyLength_zero {klen : Byte} (h : klen = 0) : ¬ LegalKeyLength klen.toNat := by
  subst h
  decide

/-- Settles O5: the reset values field by field; KEK_LEN over a step by which agent moves; and the key-length check of
the snapshot, which holds KEK_LEN = 0 whether it was just taken or, under the invariant, is in flight. -/
theorem resetStateAsSpecified : Obligations.ResetStateAsSpecified := by
  refine ⟨rfl, rfl, rfl, rfl, rfl, rfl, rfl, rfl, rfl, rfl, fun _ => rfl, fun s t hk hno h => ?kept,
    fun s w _ hk hlegal => ?accepted, fun s sn left hi hp hk hlegal => ?inFlight⟩
  case kept => exact stepWith_kekLen_zero hk hno (step_eq_stepWith s ▸ h)
  case accepted =>
    rw [exec_eq]
    exact execIn_badKey_status (accept_phase ..) hlegal (not_legalKeyLength_zero hk)
  case inFlight =>
    obtain ⟨hklen, -⟩ := snapshot_live hi hp
    rw [exec_eq]
    exact execIn_badKey_status hp hlegal (not_legalKeyLength_zero (hklen.trans hk))

end Sys2Proof.Machine
end

section
/-! The boot order (70_reset_and_hazards.md R244): SETKEK, SETIV, LOADIN and RUN (30_encoding.md R77). -/

namespace Sys2Proof.Machine

variable {P : Params} {s : State}

/-- Two words read from the halves of eight bytes are their semiblock (R25, 00_scope.md R11). -/
theorem semiblockOf_halves {v : List Byte} (hv : v.length = 8) :
    BitVec.ofNat 32 (uintBe (v.take 4)) ++ BitVec.ofNat 32 (uintBe ((v.drop 4).take 4)) = semiblockOf v := by
  have hlow : (v.drop 4).take 4 = v.drop 4 := List.take_of_length_le (by simp [hv])
  have hlen : (v.drop 4).length = 4 := by simp [hv]
  have hlt : uintBe (v.drop 4) < 2 ^ 32 := by simpa [hlen] using uintBe_lt (v.drop 4)
  have hjoin : uintBe v = uintBe (v.take 4) * 2 ^ 32 + uintBe (v.drop 4) := by
    simpa [hlen] using uintBe_append (v.take 4) (v.drop 4)
  have hhi : uintBe v / 2 ^ 32 = uintBe (v.take 4) := by omega
  have hlo : uintBe v % 2 ^ 32 = uintBe (v.drop 4) := by omega
  rw [hlow, ← hhi, ← hlo, ofNat_halves, semiblockOf]

/-- SETIV, as one update of the state. -/
theorem serveAll_setIv (v : List Byte) (hs : s.phase = .idle) :
    ∃ answers, serveAll P (setIv v) s =
      { s with
        ivHi := BitVec.ofNat 32 (uintBe (v.take 4)), ivLo := BitVec.ofNat 32 (uintBe ((v.drop 4).take 4))
        answers := answers } := by
  refine ⟨⟨.ok, none⟩ :: ⟨.ok, none⟩ :: s.answers, ?_⟩
  rw [setIv, serveAll_cons, serveAll_cons, serveAll_nil, serve_hostWr .ivHi _ hs, serve_hostWr .ivLo _ (by exact hs)]
  rfl

/-- SETKEK and SETIV on an IDLE engine: it stays IDLE under the invariant, with the key and the IV they name. -/
theorem serveAll_setKek_setIv {k v : List Byte} (hi : s.Inv P) (hs : s.phase = .idle) (hk : LegalKeyLength k.length)
    (hv : v.length = 8) :
    ∃ t : State, serveAll P (setKek k ++ setIv v) s = t ∧ t.Inv P ∧ t.phase = .idle ∧ t.key = k ∧
      t.iv = semiblockOf v := by
  obtain ⟨kek, _, hsetKek, hbytes⟩ := serveAll_setKek (P := P) hs (show k.length ≤ 32 by omega)
  obtain ⟨_, hsetIv⟩ := serveAll_setIv (P := P) (s := serveAll P (setKek k) s) v (by rw [hsetKek]; exact hs)
  rw [serveAll_append, hsetIv, hsetKek]
  refine ⟨_, rfl, inv_of_sameResult_idle hi ⟨rfl, rfl, rfl, rfl, rfl⟩ hs hi.ibufForm, hs, ?key, semiblockOf_halves hv⟩
  case key =>
    have hklen : (BitVec.ofNat 8 k.length).toNat = k.length := by
      rw [BitVec.toNat_ofNat, Nat.mod_eq_of_lt (by omega)]
    rw [State.key, hbytes, hklen, List.take_left]

/-- LOADIN on an IDLE engine keeps the key and the IV, so that RUN then captures both with the input. -/
theorem capture_loadIn {d : List Byte} (hi : s.Inv P) (hs : s.phase = .idle) (hd : d.length ≤ P.bufBytes)
    (h64 : d.length < 2 ^ 64) (w : Word) :
    ∃ t : State, serveAll P (loadIn d) s = t ∧ t.phase = .idle ∧ (capture P w t).key = s.key ∧
      (capture P w t).iv = s.iv ∧ (capture P w t).inlen.toNat = d.length ∧ (capture P w t).data = d := by
  obtain ⟨hinput, -, hlen, hframe⟩ := loadInLoadsInput P s d hi hs hd h64
  have hinLen : (serveAll P (loadIn d) s).inLen.toNat = d.length := by
    rw [hlen, BitVec.toNat_ofNat, Nat.mod_eq_of_lt h64]
  refine ⟨_, rfl, ?idle, ?key, ?iv, hinLen, ?data⟩
  case idle => rw [hframe]; exact hs
  case key => rw [hframe]; rfl
  case iv => rw [hframe]; rfl
  case data => rw [capture, hinLen, Nat.min_eq_left hd, hinput]

/-- Settles O21: RUN on the engine that SETKEK, SETIV and LOADIN leave captures what they loaded. -/
theorem bootOrderIssuesCommand : Obligations.BootOrderIssuesCommand := by
  intro P s i k v d hi hs hk hv hd h64
  obtain ⟨t, hkeyed, hinv, hidle, rfl, hiv⟩ := serveAll_setKek_setIv hi hs hk hv
  obtain ⟨u, hloaded, hidle', hkey, hiv', hlen, hdata⟩ := capture_loadIn hinv hidle hd h64 (encode i)
  rw [serveAll_append, serveAll_append, hkeyed, hloaded, runCommand, serveAll_cons, serveAll_nil,
    serve_hostWr .cmd _ hidle']
  exact ⟨capture P (encode i) u, P.latency u.accepted, rfl, rfl, hkey, hiv'.trans hiv, hlen, hdata⟩

end Sys2Proof.Machine
end
